-- ==== Sys2Proof/Word.lean ====
section
/-! DEFINITION. The word types of RISC16: a 16-bit word (spec rules R6, R8) and a register number (R20). -/

namespace Sys2Proof

/-- XLEN = 16: a general register, a data memory word, an instruction word (R6, R80). -/
abbrev Word := BitVec 16

/-- A register number, r0 to r15 (R20). -/
abbrev RegNum := Fin 16

end Sys2Proof
end

