-- ==== Sys2Proof/Syntax.lean ====
section
/-! DEFINITION. The instructions of RISC16 as decoded terms (R15, R82): one constructor for each row of
spec/opcode_table.json. A constructor's arguments are the decoded fields of R81, in the order of the
assembly syntax: `rd`, `rs`, `imm4`, `imm12`, `addr10`. -/

namespace Sys2Proof

/-- The five formats (R81). -/
inductive Format where
  | rr | ri | rri | bx | i12
  deriving DecidableEq, Repr

/-- The segment selector of a load or store, a property of the encoded instruction (R202). -/
inductive Seg where
  | d | s
  deriving DecidableEq, Repr

/-- The fifteen two-operand operations that share one function code in the rr and ri formats (R93). -/
inductive AluOp where
  | sub | subc | sbb | sbbc | and | andc | nand | nandc | or | orc | xor | xorc | mull | mulh | cmp
  deriving DecidableEq, Repr

/-- The eight conditional jumps, in the order of their condition codes (R94). -/
inductive Cond where
  | jnz | jz | jl | jg | jb | jbe | ja | jae
  deriving DecidableEq, Repr

/-- The instruction set (R82). The last six constructors are the short-hands of R110: the table lists
them, they have a meaning and a word, and the decoder never delivers them (R98). -/
inductive Instr where
  -- three operands (rri)
  | subi (rd rs : RegNum) (imm : BitVec 4)
  | subic (rd rs : RegNum) (imm : BitVec 4)
  | lwD (rd rs : RegNum) (imm : BitVec 4)
  | lwS (rd rs : RegNum) (imm : BitVec 4)
  | swD (rd rs : RegNum) (imm : BitVec 4)
  | swS (rd rs : RegNum) (imm : BitVec 4)
  -- two registers (rr)
  | subRr (rd rs : RegNum)
  | subcRr (rd rs : RegNum)
  | sbbRr (rd rs : RegNum)
  | sbbcRr (rd rs : RegNum)
  | andRr (rd rs : RegNum)
  | andcRr (rd rs : RegNum)
  | nandRr (rd rs : RegNum)
  | nandcRr (rd rs : RegNum)
  | orRr (rd rs : RegNum)
  | orcRr (rd rs : RegNum)
  | xorRr (rd rs : RegNum)
  | xorcRr (rd rs : RegNum)
  | mullRr (rd rs : RegNum)
  | mulhRr (rd rs : RegNum)
  | cmpRr (rd rs : RegNum)
  -- register and immediate (ri)
  | subRi (rd : RegNum) (imm : BitVec 4)
  | subcRi (rd : RegNum) (imm : BitVec 4)
  | sbbRi (rd : RegNum) (imm : BitVec 4)
  | sbbcRi (rd : RegNum) (imm : BitVec 4)
  | andRi (rd : RegNum) (imm : BitVec 4)
  | andcRi (rd : RegNum) (imm : BitVec 4)
  | nandRi (rd : RegNum) (imm : BitVec 4)
  | nandcRi (rd : RegNum) (imm : BitVec 4)
  | orRi (rd : RegNum) (imm : BitVec 4)
  | orcRi (rd : RegNum) (imm : BitVec 4)
  | xorRi (rd : RegNum) (imm : BitVec 4)
  | xorcRi (rd : RegNum) (imm : BitVec 4)
  | mullRi (rd : RegNum) (imm : BitVec 4)
  | mulhRi (rd : RegNum) (imm : BitVec 4)
  | cmpRi (rd : RegNum) (imm : BitVec 4)
  -- conditional jumps (bx)
  | jnz (addr : BitVec 10)
  | jz (addr : BitVec 10)
  | jl (addr : BitVec 10)
  | jg (addr : BitVec 10)
  | jb (addr : BitVec 10)
  | jbe (addr : BitVec 10)
  | ja (addr : BitVec 10)
  | jae (addr : BitVec 10)
  -- unconditional branches
  | brRr (rs : RegNum)
  | brlRr (rd rs : RegNum)
  | brRi (imm : BitVec 4)
  | brlRi (rd : RegNum) (imm : BitVec 4)
  -- the immediate prefix
  | i12 (imm : BitVec 12)
  -- short-hands
  | dec (rd : RegNum)
  | decc (rd : RegNum)
  | inc (rd : RegNum)
  | incc (rd : RegNum)
  | neg (rd : RegNum)
  | negc (rd : RegNum)
  deriving DecidableEq, Repr

/-- The format of an instruction (R82); a short-hand has the format of its expansion. -/
def Instr.format : Instr → Format
  | .subi .. | .subic .. | .lwD .. | .lwS .. | .swD .. | .swS .. => .rri
  | .subRr .. | .subcRr .. | .sbbRr .. | .sbbcRr .. | .andRr .. | .andcRr .. | .nandRr .. | .nandcRr ..
  | .orRr .. | .orcRr .. | .xorRr .. | .xorcRr .. | .mullRr .. | .mulhRr .. | .cmpRr .. => .rr
  | .subRi .. | .subcRi .. | .sbbRi .. | .sbbcRi .. | .andRi .. | .andcRi .. | .nandRi .. | .nandcRi ..
  | .orRi .. | .orcRi .. | .xorRi .. | .xorcRi .. | .mullRi .. | .mulhRi .. | .cmpRi .. => .ri
  | .jnz .. | .jz .. | .jl .. | .jg .. | .jb .. | .jbe .. | .ja .. | .jae .. => .bx
  | .brRr .. | .brlRr .. => .rr
  | .brRi .. | .brlRi .. => .ri
  | .i12 .. => .i12
  | .dec .. | .decc .. | .inc .. | .incc .. => .rri
  | .neg .. | .negc .. => .ri

end Sys2Proof
end

