-- ==== Sys2Proof/Config.lean ====
section
/-! DEFINITION. The implementation parameters of R7 as plain data, carried in State so that every statement
holds for every value of them (log 7), and the one free value of the model (log 9). ILEN alone is no field:
the spec fixes it at 16 (D1, log 16). -/

namespace Sys2Proof

/-- How MEMMAP classifies a data address (R229). -/
inductive MemClass where
  | ram | device | absent
  deriving DecidableEq, Repr

/-- One region of MEMMAP: the addresses `base` to `base + size - 1` (R67, R229). -/
structure Region where
  base : Nat
  size : Nat
  kind : MemClass
  deriving DecidableEq, Repr

/-- A predicate over the three flags, as data: an entry of JCOND (R187: "a model takes the predicate from
the JCOND table so that either reading can be supplied"). -/
inductive FlagTest where
  | zf | nf | bf
  | not (t : FlagTest)
  | and (t u : FlagTest)
  | or (t u : FlagTest)
  deriving DecidableEq, Repr

/-- JCOND: the predicate each jump mnemonic tests (R7, R190). -/
structure JumpTable where
  jnz : FlagTest
  jz : FlagTest
  jl : FlagTest
  jg : FlagTest
  jb : FlagTest
  jbe : FlagTest
  ja : FlagTest
  jae : FlagTest
  deriving DecidableEq, Repr

/-- BX_UPPER: what a taken conditional jump does to the pc bits above bit 9 (R7, R181). -/
inductive BxUpper where
  | zero | keep
  deriving DecidableEq, Repr

/-- What an instruction is, its operand fields left out (R82). -/
inductive OpKind where
  | subi | subic
  | lw (g : Seg)
  | sw (g : Seg)
  | aluRr (op : AluOp)
  | aluRi (op : AluOp)
  | jump (c : Cond)
  | brRr | brlRr | brRi | brlRi | i12
  deriving DecidableEq, Repr

/-- One row of a codec: the words that agree with `value` on the bits of `mask`. A field is the list of its bit
positions in the word, the most significant bit of the field first. -/
structure CodecRow where
  kind : OpKind
  mask : Word
  value : Word
  rd : List Nat
  rs : List Nat
  imm : List Nat
  deriving DecidableEq, Repr

/-- CODEC: the map between 16-bit words and instructions (R7, R90). A table of rows replaces the spec's codec
"without touching a semantic rule"; that it is such a table is log 24. -/
inductive Codec where
  /-- the codec of R91 to R98 -/
  | specAssigned
  /-- another one -/
  | rows (table : List CodecRow)
  deriving DecidableEq, Repr

/-- The parameters of R7 that a model takes as arguments. -/
structure Config where
  /-- PCW, the width of the pc in bits, 10 to 16 (R24). -/
  pcw : Nat
  /-- IMEM_WORDS, the number of words of instruction SRAM, 1 to 2^PCW (R26). -/
  imemWords : Nat
  /-- DSW, the width of DS, 0 to 16 (R32). -/
  dsw : Nat
  /-- SSW, the width of SS, 0 to 16 (R32). -/
  ssw : Nat
  /-- MEMMAP: the first region that holds an address decides; an address in no region is `ram` (R229). -/
  memMap : List Region
  /-- JCOND (R190). -/
  jcond : JumpTable
  /-- BX_UPPER (R181). -/
  bxUpper : BxUpper
  /-- CODEC (R90). -/
  codec : Codec
  /-- DELAY_SLOTS, the number of instructions executed after a taken jump or branch before its target (R7,
  R261). -/
  delaySlots : Nat
  /-- HALT_PC, if the launch names one (R231 step 1, R265). -/
  haltPc : Option Word
  deriving DecidableEq, Repr

/-- What a memory word that nothing has written reads as. DESIGN CHOICE: R36 and R250 leave the launch
contents free (logs 5, 6); unsafe. -/
def Config.unlisted : Word := 0x0000#16

/-- The value the environment answers a load from a device address with: "any 16-bit value" (R63, R229).
A free value: the arguments are the number of device loads before this one and the address (log 9). -/
opaque Config.deviceWord : Nat → Nat → Word

end Sys2Proof
end

