-- ==== Sys2Proof/WellFormed.lean ====
section
/-! DEFINITION. Which terms are machine instructions. A register number, an immediate field and a jump
target are in range by their types, so every field of a term fits its bit-field (R81, R91). What is left to
check is R98's canonical form: "the short-hands exist only in the assembler". -/

namespace Sys2Proof

/-- A term the decoder can deliver: any instruction but the six short-hands (R98, R110). -/
def Instr.wellFormed : Instr → Bool
  | .dec _ => false
  | .decc _ => false
  | .inc _ => false
  | .incc _ => false
  | .neg _ => false
  | .negc _ => false
  | .subi .. | .subic .. | .lwD .. | .lwS .. | .swD .. | .swS ..
  | .subRr .. | .subcRr .. | .sbbRr .. | .sbbcRr .. | .andRr .. | .andcRr .. | .nandRr .. | .nandcRr ..
  | .orRr .. | .orcRr .. | .xorRr .. | .xorcRr .. | .mullRr .. | .mulhRr .. | .cmpRr ..
  | .subRi .. | .subcRi .. | .sbbRi .. | .sbbcRi .. | .andRi .. | .andcRi .. | .nandRi .. | .nandcRi ..
  | .orRi .. | .orcRi .. | .xorRi .. | .xorcRi .. | .mullRi .. | .mulhRi .. | .cmpRi ..
  | .jnz .. | .jz .. | .jl .. | .jg .. | .jb .. | .jbe .. | .ja .. | .jae ..
  | .brRr .. | .brlRr .. | .brRi .. | .brlRi .. | .i12 .. => true

end Sys2Proof
end

