-- ==== Sys2Proof/Decode.lean ====
section
/-! DEFINITION. The codecs: configuration, not semantics. First the spec-assigned one (R90 to R98). `decode` is total on
16-bit words and names the reason of every rejection (R96); `encode` gives each instruction its word. No
word of it is claimed to be a word the real chip accepts (R90, log 16). At the end any codec of the parameter
CODEC (R7). -/

namespace Sys2Proof

/-- Why a word is no instruction (R96). -/
inductive IllegalReason where
  /-- major opcode 0xC, 0xD or 0xE -/
  | reservedMajor
  /-- major opcode 0x0 with bits 3:0 = 0xF -/
  | reservedRrFn
  /-- major opcode 0x1 with bits 7:4 = 0xF -/
  | reservedRiFn
  /-- major opcode 0xA with bits 3:0 >= 0x2, or 0xB with bits 7:4 >= 0x2 -/
  | reservedBranchFn
  /-- a `br` word whose rd field is not 0 -/
  | nonZeroBrRd
  /-- no row of a replaced codec holds the word (log 24) -/
  | noRow
  deriving DecidableEq, Repr

/-! ## Fields (R91) -/

/-- Bits 15:12. -/
def fieldMajor (w : Word) : BitVec 4 := w.extractLsb' 12 4
/-- Bits 11:8, the `rd` field. -/
def fieldA (w : Word) : BitVec 4 := w.extractLsb' 8 4
/-- Bits 7:4, the `rs` field, or `fn` of an ri word. -/
def fieldB (w : Word) : BitVec 4 := w.extractLsb' 4 4
/-- Bits 3:0, `imm4`, or `fn` of an rr word. -/
def fieldC (w : Word) : BitVec 4 := w.extractLsb' 0 4
/-- Bits 11:0, `imm12`. -/
def fieldImm12 (w : Word) : BitVec 12 := w.extractLsb' 0 12
/-- Bits 12:10, `cc`. -/
def fieldCc (w : Word) : BitVec 3 := w.extractLsb' 10 3
/-- Bits 9:0, `addr10`. -/
def fieldAddr10 (w : Word) : BitVec 10 := w.extractLsb' 0 10

/-- The register a 4-bit field names (R20). -/
def regOfField (f : BitVec 4) : RegNum := f.toFin

/-- The field that names a register (R20). -/
def fieldOfReg (r : RegNum) : BitVec 4 := BitVec.ofFin (w := 4) r

/-! ## Function and condition codes (R93, R94) -/

def AluOp.ofFn (fn : BitVec 4) : Option AluOp :=
  match fn.toNat with
  | 0x0 => some .sub
  | 0x1 => some .subc
  | 0x2 => some .sbb
  | 0x3 => some .sbbc
  | 0x4 => some .and
  | 0x5 => some .andc
  | 0x6 => some .nand
  | 0x7 => some .nandc
  | 0x8 => some .or
  | 0x9 => some .orc
  | 0xA => some .xor
  | 0xB => some .xorc
  | 0xC => some .mull
  | 0xD => some .mulh
  | 0xE => some .cmp
  | _ => none

def AluOp.fn : AluOp → BitVec 4
  | .sub => 0x0#4
  | .subc => 0x1#4
  | .sbb => 0x2#4
  | .sbbc => 0x3#4
  | .and => 0x4#4
  | .andc => 0x5#4
  | .nand => 0x6#4
  | .nandc => 0x7#4
  | .or => 0x8#4
  | .orc => 0x9#4
  | .xor => 0xA#4
  | .xorc => 0xB#4
  | .mull => 0xC#4
  | .mulh => 0xD#4
  | .cmp => 0xE#4

/-- Every 3-bit code is a condition, so the last arm is code 7 (R94). -/
def Cond.ofCc (cc : BitVec 3) : Cond :=
  match cc.toNat with
  | 0 => .jnz
  | 1 => .jz
  | 2 => .jl
  | 3 => .jg
  | 4 => .jb
  | 5 => .jbe
  | 6 => .ja
  | _ => .jae

def Cond.cc : Cond → BitVec 3
  | .jnz => 0#3
  | .jz => 1#3
  | .jl => 2#3
  | .jg => 3#3
  | .jb => 4#3
  | .jbe => 5#3
  | .ja => 6#3
  | .jae => 7#3

/-- The rr instruction of an operation (R93). -/
def AluOp.rr (op : AluOp) (rd rs : RegNum) : Instr :=
  match op with
  | .sub => .subRr rd rs
  | .subc => .subcRr rd rs
  | .sbb => .sbbRr rd rs
  | .sbbc => .sbbcRr rd rs
  | .and => .andRr rd rs
  | .andc => .andcRr rd rs
  | .nand => .nandRr rd rs
  | .nandc => .nandcRr rd rs
  | .or => .orRr rd rs
  | .orc => .orcRr rd rs
  | .xor => .xorRr rd rs
  | .xorc => .xorcRr rd rs
  | .mull => .mullRr rd rs
  | .mulh => .mulhRr rd rs
  | .cmp => .cmpRr rd rs

/-- The ri instruction of an operation (R93). -/
def AluOp.ri (op : AluOp) (rd : RegNum) (imm : BitVec 4) : Instr :=
  match op with
  | .sub => .subRi rd imm
  | .subc => .subcRi rd imm
  | .sbb => .sbbRi rd imm
  | .sbbc => .sbbcRi rd imm
  | .and => .andRi rd imm
  | .andc => .andcRi rd imm
  | .nand => .nandRi rd imm
  | .nandc => .nandcRi rd imm
  | .or => .orRi rd imm
  | .orc => .orcRi rd imm
  | .xor => .xorRi rd imm
  | .xorc => .xorcRi rd imm
  | .mull => .mullRi rd imm
  | .mulh => .mulhRi rd imm
  | .cmp => .cmpRi rd imm

/-- The conditional jump of a condition (R94). -/
def Cond.jump (c : Cond) (addr : BitVec 10) : Instr :=
  match c with
  | .jnz => .jnz addr
  | .jz => .jz addr
  | .jl => .jl addr
  | .jg => .jg addr
  | .jb => .jb addr
  | .jbe => .jbe addr
  | .ja => .ja addr
  | .jae => .jae addr

/-- The instruction a term stands for in the machine: a short-hand is its expansion (R110), every other
instruction is itself. -/
def Instr.canonical : Instr → Instr
  | .dec rd => .subi rd rd 1#4
  | .decc rd => .subic rd rd 1#4
  | .inc rd => .subi rd rd 0xF#4
  | .incc rd => .subic rd rd 0xF#4
  | .neg rd => .subRi rd 0#4
  | .negc rd => .subcRi rd 0#4
  | i => i

/-! ## Decoding (R98) -/

def decodeAluRr (w : Word) : Except IllegalReason Instr :=
  match AluOp.ofFn (fieldC w) with
  | some op => .ok (op.rr (regOfField (fieldA w)) (regOfField (fieldB w)))
  | none => .error .reservedRrFn

def decodeAluRi (w : Word) : Except IllegalReason Instr :=
  match AluOp.ofFn (fieldB w) with
  | some op => .ok (op.ri (regOfField (fieldA w)) (fieldC w))
  | none => .error .reservedRiFn

/-- Branches with a register target (R95). -/
def decodeBranchRr (w : Word) : Except IllegalReason Instr :=
  match (fieldC w).toNat with
  | 0x0 => if fieldA w = 0#4 then .ok (.brRr (regOfField (fieldB w))) else .error .nonZeroBrRd
  | 0x1 => .ok (.brlRr (regOfField (fieldA w)) (regOfField (fieldB w)))
  | _ => .error .reservedBranchFn

/-- Branches with an immediate target (R95). -/
def decodeBranchRi (w : Word) : Except IllegalReason Instr :=
  match (fieldB w).toNat with
  | 0x0 => if fieldA w = 0#4 then .ok (.brRi (fieldC w)) else .error .nonZeroBrRd
  | 0x1 => .ok (.brlRi (regOfField (fieldA w)) (fieldC w))
  | _ => .error .reservedBranchFn

/-- The decoding algorithm of R98; the last arm is major opcode 0xF. -/
def decode (w : Word) : Except IllegalReason Instr :=
  let rd := regOfField (fieldA w)
  let rs := regOfField (fieldB w)
  let imm := fieldC w
  match (fieldMajor w).toNat with
  | 0x0 => decodeAluRr w
  | 0x1 => decodeAluRi w
  | 0x2 => .ok (.subi rd rs imm)
  | 0x3 => .ok (.subic rd rs imm)
  | 0x4 => .ok (.lwD rd rs imm)
  | 0x5 => .ok (.lwS rd rs imm)
  | 0x6 => .ok (.swD rd rs imm)
  | 0x7 => .ok (.swS rd rs imm)
  | 0x8 => .ok ((Cond.ofCc (fieldCc w)).jump (fieldAddr10 w))
  | 0x9 => .ok ((Cond.ofCc (fieldCc w)).jump (fieldAddr10 w))
  | 0xA => decodeBranchRr w
  | 0xB => decodeBranchRi w
  | 0xC => .error .reservedMajor
  | 0xD => .error .reservedMajor
  | 0xE => .error .reservedMajor
  | _ => .ok (.i12 (fieldImm12 w))

/-- The instruction the decoder reads from a table row's word. The instruction is one 16-bit word; bits at
and above `nbits` are 0, and a number that does not fit one word is no instruction of this machine. -/
def decodeTableWord (nbits w : Nat) : Option Instr :=
  let bits := w % 2 ^ nbits
  if bits < 2 ^ 16 then (decode (BitVec.ofNat 16 bits)).toOption else none

/-! ## Encoding (R91 to R95) -/

def wordRr (major : BitVec 4) (rd rs : RegNum) (fn : BitVec 4) : Word :=
  major ++ fieldOfReg rd ++ fieldOfReg rs ++ fn

def wordRi (major : BitVec 4) (rd : RegNum) (fn imm : BitVec 4) : Word :=
  major ++ fieldOfReg rd ++ fn ++ imm

def wordRri (major : BitVec 4) (rd rs : RegNum) (imm : BitVec 4) : Word :=
  major ++ fieldOfReg rd ++ fieldOfReg rs ++ imm

def wordBx (c : Cond) (addr : BitVec 10) : Word := 0b100#3 ++ c.cc ++ addr

/-- The word of an instruction; a short-hand has the word of its expansion (R110). -/
def encode : Instr → Word
  | .subi rd rs imm => wordRri 0x2#4 rd rs imm
  | .subic rd rs imm => wordRri 0x3#4 rd rs imm
  | .lwD rd rs imm => wordRri 0x4#4 rd rs imm
  | .lwS rd rs imm => wordRri 0x5#4 rd rs imm
  | .swD rd rs imm => wordRri 0x6#4 rd rs imm
  | .swS rd rs imm => wordRri 0x7#4 rd rs imm
  | .subRr rd rs => wordRr 0x0#4 rd rs AluOp.sub.fn
  | .subcRr rd rs => wordRr 0x0#4 rd rs AluOp.subc.fn
  | .sbbRr rd rs => wordRr 0x0#4 rd rs AluOp.sbb.fn
  | .sbbcRr rd rs => wordRr 0x0#4 rd rs AluOp.sbbc.fn
  | .andRr rd rs => wordRr 0x0#4 rd rs AluOp.and.fn
  | .andcRr rd rs => wordRr 0x0#4 rd rs AluOp.andc.fn
  | .nandRr rd rs => wordRr 0x0#4 rd rs AluOp.nand.fn
  | .nandcRr rd rs => wordRr 0x0#4 rd rs AluOp.nandc.fn
  | .orRr rd rs => wordRr 0x0#4 rd rs AluOp.or.fn
  | .orcRr rd rs => wordRr 0x0#4 rd rs AluOp.orc.fn
  | .xorRr rd rs => wordRr 0x0#4 rd rs AluOp.xor.fn
  | .xorcRr rd rs => wordRr 0x0#4 rd rs AluOp.xorc.fn
  | .mullRr rd rs => wordRr 0x0#4 rd rs AluOp.mull.fn
  | .mulhRr rd rs => wordRr 0x0#4 rd rs AluOp.mulh.fn
  | .cmpRr rd rs => wordRr 0x0#4 rd rs AluOp.cmp.fn
  | .subRi rd imm => wordRi 0x1#4 rd AluOp.sub.fn imm
  | .subcRi rd imm => wordRi 0x1#4 rd AluOp.subc.fn imm
  | .sbbRi rd imm => wordRi 0x1#4 rd AluOp.sbb.fn imm
  | .sbbcRi rd imm => wordRi 0x1#4 rd AluOp.sbbc.fn imm
  | .andRi rd imm => wordRi 0x1#4 rd AluOp.and.fn imm
  | .andcRi rd imm => wordRi 0x1#4 rd AluOp.andc.fn imm
  | .nandRi rd imm => wordRi 0x1#4 rd AluOp.nand.fn imm
  | .nandcRi rd imm => wordRi 0x1#4 rd AluOp.nandc.fn imm
  | .orRi rd imm => wordRi 0x1#4 rd AluOp.or.fn imm
  | .orcRi rd imm => wordRi 0x1#4 rd AluOp.orc.fn imm
  | .xorRi rd imm => wordRi 0x1#4 rd AluOp.xor.fn imm
  | .xorcRi rd imm => wordRi 0x1#4 rd AluOp.xorc.fn imm
  | .mullRi rd imm => wordRi 0x1#4 rd AluOp.mull.fn imm
  | .mulhRi rd imm => wordRi 0x1#4 rd AluOp.mulh.fn imm
  | .cmpRi rd imm => wordRi 0x1#4 rd AluOp.cmp.fn imm
  | .jnz addr => wordBx .jnz addr
  | .jz addr => wordBx .jz addr
  | .jl addr => wordBx .jl addr
  | .jg addr => wordBx .jg addr
  | .jb addr => wordBx .jb addr
  | .jbe addr => wordBx .jbe addr
  | .ja addr => wordBx .ja addr
  | .jae addr => wordBx .jae addr
  | .brRr rs => wordRr 0xA#4 0 rs 0x0#4
  | .brlRr rd rs => wordRr 0xA#4 rd rs 0x1#4
  | .brRi imm => wordRi 0xB#4 0 0x0#4 imm
  | .brlRi rd imm => wordRi 0xB#4 rd 0x1#4 imm
  | .i12 imm => 0xF#4 ++ imm
  | .dec rd => wordRri 0x2#4 rd rd 0x1#4
  | .decc rd => wordRri 0x3#4 rd rd 0x1#4
  | .inc rd => wordRri 0x2#4 rd rd 0xF#4
  | .incc rd => wordRri 0x3#4 rd rd 0xF#4
  | .neg rd => wordRi 0x1#4 rd AluOp.sub.fn 0x0#4
  | .negc rd => wordRi 0x1#4 rd AluOp.subc.fn 0x0#4

/-! ## The parameter CODEC (R7, R90; log 24) -/

/-- The kind of an instruction and its fields as numbers, 0 for a field it does not have; a short-hand is its
expansion (R110). -/
structure Parts where
  kind : OpKind
  rd : Nat
  rs : Nat
  imm : Nat
  deriving DecidableEq, Repr

def Instr.parts : Instr → Parts
  | .subi rd rs imm => ⟨.subi, rd.val, rs.val, imm.toNat⟩
  | .subic rd rs imm => ⟨.subic, rd.val, rs.val, imm.toNat⟩
  | .lwD rd rs imm => ⟨.lw .d, rd.val, rs.val, imm.toNat⟩
  | .lwS rd rs imm => ⟨.lw .s, rd.val, rs.val, imm.toNat⟩
  | .swD rd rs imm => ⟨.sw .d, rd.val, rs.val, imm.toNat⟩
  | .swS rd rs imm => ⟨.sw .s, rd.val, rs.val, imm.toNat⟩
  | .subRr rd rs => ⟨.aluRr .sub, rd.val, rs.val, 0⟩
  | .subcRr rd rs => ⟨.aluRr .subc, rd.val, rs.val, 0⟩
  | .sbbRr rd rs => ⟨.aluRr .sbb, rd.val, rs.val, 0⟩
  | .sbbcRr rd rs => ⟨.aluRr .sbbc, rd.val, rs.val, 0⟩
  | .andRr rd rs => ⟨.aluRr .and, rd.val, rs.val, 0⟩
  | .andcRr rd rs => ⟨.aluRr .andc, rd.val, rs.val, 0⟩
  | .nandRr rd rs => ⟨.aluRr .nand, rd.val, rs.val, 0⟩
  | .nandcRr rd rs => ⟨.aluRr .nandc, rd.val, rs.val, 0⟩
  | .orRr rd rs => ⟨.aluRr .or, rd.val, rs.val, 0⟩
  | .orcRr rd rs => ⟨.aluRr .orc, rd.val, rs.val, 0⟩
  | .xorRr rd rs => ⟨.aluRr .xor, rd.val, rs.val, 0⟩
  | .xorcRr rd rs => ⟨.aluRr .xorc, rd.val, rs.val, 0⟩
  | .mullRr rd rs => ⟨.aluRr .mull, rd.val, rs.val, 0⟩
  | .mulhRr rd rs => ⟨.aluRr .mulh, rd.val, rs.val, 0⟩
  | .cmpRr rd rs => ⟨.aluRr .cmp, rd.val, rs.val, 0⟩
  | .subRi rd imm => ⟨.aluRi .sub, rd.val, 0, imm.toNat⟩
  | .subcRi rd imm => ⟨.aluRi .subc, rd.val, 0, imm.toNat⟩
  | .sbbRi rd imm => ⟨.aluRi .sbb, rd.val, 0, imm.toNat⟩
  | .sbbcRi rd imm => ⟨.aluRi .sbbc, rd.val, 0, imm.toNat⟩
  | .andRi rd imm => ⟨.aluRi .and, rd.val, 0, imm.toNat⟩
  | .andcRi rd imm => ⟨.aluRi .andc, rd.val, 0, imm.toNat⟩
  | .nandRi rd imm => ⟨.aluRi .nand, rd.val, 0, imm.toNat⟩
  | .nandcRi rd imm => ⟨.aluRi .nandc, rd.val, 0, imm.toNat⟩
  | .orRi rd imm => ⟨.aluRi .or, rd.val, 0, imm.toNat⟩
  | .orcRi rd imm => ⟨.aluRi .orc, rd.val, 0, imm.toNat⟩
  | .xorRi rd imm => ⟨.aluRi .xor, rd.val, 0, imm.toNat⟩
  | .xorcRi rd imm => ⟨.aluRi .xorc, rd.val, 0, imm.toNat⟩
  | .mullRi rd imm => ⟨.aluRi .mull, rd.val, 0, imm.toNat⟩
  | .mulhRi rd imm => ⟨.aluRi .mulh, rd.val, 0, imm.toNat⟩
  | .cmpRi rd imm => ⟨.aluRi .cmp, rd.val, 0, imm.toNat⟩
  | .jnz addr => ⟨.jump .jnz, 0, 0, addr.toNat⟩
  | .jz addr => ⟨.jump .jz, 0, 0, addr.toNat⟩
  | .jl addr => ⟨.jump .jl, 0, 0, addr.toNat⟩
  | .jg addr => ⟨.jump .jg, 0, 0, addr.toNat⟩
  | .jb addr => ⟨.jump .jb, 0, 0, addr.toNat⟩
  | .jbe addr => ⟨.jump .jbe, 0, 0, addr.toNat⟩
  | .ja addr => ⟨.jump .ja, 0, 0, addr.toNat⟩
  | .jae addr => ⟨.jump .jae, 0, 0, addr.toNat⟩
  | .brRr rs => ⟨.brRr, 0, rs.val, 0⟩
  | .brlRr rd rs => ⟨.brlRr, rd.val, rs.val, 0⟩
  | .brRi imm => ⟨.brRi, 0, 0, imm.toNat⟩
  | .brlRi rd imm => ⟨.brlRi, rd.val, 0, imm.toNat⟩
  | .i12 imm => ⟨.i12, 0, 0, imm.toNat⟩
  | .dec rd => ⟨.subi, rd.val, rd.val, 1⟩
  | .decc rd => ⟨.subic, rd.val, rd.val, 1⟩
  | .inc rd => ⟨.subi, rd.val, rd.val, 0xF⟩
  | .incc rd => ⟨.subic, rd.val, rd.val, 0xF⟩
  | .neg rd => ⟨.aluRi .sub, rd.val, 0, 0⟩
  | .negc rd => ⟨.aluRi .subc, rd.val, 0, 0⟩

/-- The instruction of a kind and its fields. -/
def Parts.instr (p : Parts) : Instr :=
  let rd : RegNum := Fin.ofNat 16 p.rd
  let rs : RegNum := Fin.ofNat 16 p.rs
  let imm := BitVec.ofNat 4 p.imm
  match p.kind with
  | .subi => .subi rd rs imm
  | .subic => .subic rd rs imm
  | .lw .d => .lwD rd rs imm
  | .lw .s => .lwS rd rs imm
  | .sw .d => .swD rd rs imm
  | .sw .s => .swS rd rs imm
  | .aluRr op => op.rr rd rs
  | .aluRi op => op.ri rd imm
  | .jump c => c.jump (BitVec.ofNat 10 p.imm)
  | .brRr => .brRr rs
  | .brlRr => .brlRr rd rs
  | .brRi => .brRi imm
  | .brlRi => .brlRi rd imm
  | .i12 => .i12 (BitVec.ofNat 12 p.imm)

/-- The width of the rd field of a kind (R91). -/
def OpKind.rdBits : OpKind → Nat
  | .jump _ | .brRr | .brRi | .i12 => 0
  | .subi | .subic | .lw _ | .sw _ | .aluRr _ | .aluRi _ | .brlRr | .brlRi => 4

/-- The width of the rs field of a kind (R91). -/
def OpKind.rsBits : OpKind → Nat
  | .aluRi _ | .jump _ | .brRi | .brlRi | .i12 => 0
  | .subi | .subic | .lw _ | .sw _ | .aluRr _ | .brRr | .brlRr => 4

/-- The width of the constant of a kind: `imm4`, `addr10` or `imm12` (R91). -/
def OpKind.immBits : OpKind → Nat
  | .aluRr _ | .brRr | .brlRr => 0
  | .subi | .subic | .lw _ | .sw _ | .aluRi _ | .brRi | .brlRi => 4
  | .jump _ => 10
  | .i12 => 12

/-- The number a field of a word holds. -/
def gatherField (w : Word) : List Nat → Nat
  | [] => 0
  | p :: ps => (w.getLsbD p).toNat * 2 ^ ps.length + gatherField w ps

/-- The word with a number in a field and 0 elsewhere. -/
def scatterField (v : Nat) : List Nat → Word
  | [] => 0#16
  | p :: ps => (if v.testBit ps.length then BitVec.twoPow 16 p else 0#16) ||| scatterField v ps

def CodecRow.holds (r : CodecRow) (w : Word) : Bool := w &&& r.mask == r.value

def CodecRow.read (r : CodecRow) (w : Word) : Instr :=
  Parts.instr ⟨r.kind, gatherField w r.rd, gatherField w r.rs, gatherField w r.imm⟩

def CodecRow.write (r : CodecRow) (p : Parts) : Word :=
  r.value ||| scatterField p.rd r.rd ||| scatterField p.rs r.rs ||| scatterField p.imm r.imm

/-- The bit positions of a row's fields. -/
def CodecRow.positions (r : CodecRow) : List Nat := r.rd ++ r.rs ++ r.imm

/-- A row whose fields have their widths and whose every bit is either fixed or in one field. -/
def CodecRow.wf (r : CodecRow) : Bool :=
  r.rd.length == r.kind.rdBits && r.rs.length == r.kind.rsBits && r.imm.length == r.kind.immBits &&
  decide r.positions.Nodup && r.positions.all (fun p => decide (p < 16)) &&
  (List.range 16).all (fun p => r.mask.getLsbD p == !(r.positions.contains p)) && r.value &&& ~~~r.mask == 0#16

/-- Two rows no word can both hold, of different kinds. -/
def CodecRow.apart (r q : CodecRow) : Bool :=
  r.kind != q.kind && r.mask &&& q.mask &&& (r.value ^^^ q.value) != 0#16

/-- A codec in which a word has one meaning and an instruction one word. -/
def Codec.wf : Codec → Bool
  | .specAssigned => true
  | .rows table => table.all CodecRow.wf && decide (table.Pairwise fun r q => r.apart q = true)

def decodeRows (w : Word) : List CodecRow → Except IllegalReason Instr
  | [] => .error .noRow
  | r :: rest => if r.holds w then .ok (r.read w) else decodeRows w rest

def encodeRows (p : Parts) : List CodecRow → Option Word
  | [] => none
  | r :: rest => if r.kind = p.kind then some (r.write p) else encodeRows p rest

/-- The instruction of a word. -/
def Codec.decode : Codec → Word → Except IllegalReason Instr
  | .specAssigned, w => Sys2Proof.decode w
  | .rows table, w => decodeRows w table

/-- The word of an instruction; none where a replaced codec has no row for it. -/
def Codec.encode : Codec → Instr → Option Word
  | .specAssigned, i => some (Sys2Proof.encode i)
  | .rows table, i => encodeRows i.parts table

/-! ### The spec-assigned codec as rows (R91 to R95) -/

/-- Bits 11:8. -/
def bitsA : List Nat := [11, 10, 9, 8]
/-- Bits 7:4. -/
def bitsB : List Nat := [7, 6, 5, 4]
/-- Bits 3:0. -/
def bitsC : List Nat := [3, 2, 1, 0]

def specRri (kind : OpKind) (major : BitVec 4) : CodecRow :=
  ⟨kind, 0xF000#16, major ++ 0#12, bitsA, bitsB, bitsC⟩

def specRr (op : AluOp) : CodecRow := ⟨.aluRr op, 0xF00F#16, 0#12 ++ op.fn, bitsA, bitsB, []⟩

def specRi (op : AluOp) : CodecRow := ⟨.aluRi op, 0xF0F0#16, 0x10#8 ++ op.fn ++ 0#4, bitsA, [], bitsC⟩

def specJump (c : Cond) : CodecRow :=
  ⟨.jump c, 0xFC00#16, 0b100#3 ++ c.cc ++ 0#10, [], [], [9, 8] ++ bitsB ++ bitsC⟩

def specAluOps : List AluOp :=
  [.sub, .subc, .sbb, .sbbc, .and, .andc, .nand, .nandc, .or, .orc, .xor, .xorc, .mull, .mulh, .cmp]

def specConds : List Cond := [.jnz, .jz, .jl, .jg, .jb, .jbe, .ja, .jae]

/-- R91 to R95 as a table. -/
def specRows : List CodecRow :=
  [specRri .subi 0x2#4, specRri .subic 0x3#4, specRri (.lw .d) 0x4#4, specRri (.lw .s) 0x5#4,
   specRri (.sw .d) 0x6#4, specRri (.sw .s) 0x7#4] ++
  specAluOps.map specRr ++ specAluOps.map specRi ++ specConds.map specJump ++
  [⟨.brRr, 0xFF0F#16, 0xA000#16, [], bitsB, []⟩, ⟨.brlRr, 0xF00F#16, 0xA001#16, bitsA, bitsB, []⟩,
   ⟨.brRi, 0xFFF0#16, 0xB000#16, [], [], bitsC⟩, ⟨.brlRi, 0xF0F0#16, 0xB010#16, bitsA, [], bitsC⟩,
   ⟨.i12, 0xF000#16, 0xF000#16, [], [], bitsA ++ bitsB ++ bitsC⟩]

end Sys2Proof
end

