-- ==== Sys2Proof/Machine/Conditions.lean ====
section
/-! DEFINITION. Reading the parameters of R7: the jump conditions (JCOND, R182 to R190), the memory map
(MEMMAP, R229) and the ranges of the widths. -/

namespace Sys2Proof

/-- The value of a flag predicate (R190). -/
def FlagTest.eval (zf nf bf : Bool) : FlagTest → Bool
  | .zf => zf
  | .nf => nf
  | .bf => bf
  | .not t => !(FlagTest.eval zf nf bf t)
  | .and t u => FlagTest.eval zf nf bf t && FlagTest.eval zf nf bf u
  | .or t u => FlagTest.eval zf nf bf t || FlagTest.eval zf nf bf u

/-- The guide's table read literally, the default of JCOND (R182 to R189, D10). -/
def JumpTable.literal : JumpTable where
  jnz := .not .zf
  jz := .zf
  jl := .nf
  jg := .not .nf
  jb := .bf
  jbe := .and .bf .zf
  ja := .not .bf
  jae := .and (.not .bf) .zf

/-- The other reading of the two suspect rows (C6, D10): `jbe` when BF or ZF, `jae` when not BF. -/
def JumpTable.alternative : JumpTable :=
  { JumpTable.literal with jbe := .or .bf .zf, jae := .not .bf }

/-- The entry of JCOND for a jump (R94, R190). -/
def JumpTable.test (j : JumpTable) : Cond → FlagTest
  | .jnz => j.jnz
  | .jz => j.jz
  | .jl => j.jl
  | .jg => j.jg
  | .jb => j.jb
  | .jbe => j.jbe
  | .ja => j.ja
  | .jae => j.jae

/-- Whether a region of MEMMAP holds an address. -/
def Region.holds (r : Region) (a : Nat) : Bool := decide (r.base ≤ a ∧ a < r.base + r.size)

/-- The class of a data address: that of the first region that holds it, and `ram` where none does, the
default MEMMAP of D23 (R229). -/
def classify : List Region → Nat → MemClass
  | [], _ => .ram
  | r :: rest, a => if r.holds a then r.kind else classify rest a

/-- The ranges R7 gives the parameters. -/
def Config.wf (c : Config) : Bool :=
  decide (10 ≤ c.pcw ∧ c.pcw ≤ 16 ∧ 1 ≤ c.imemWords ∧ c.imemWords ≤ 2 ^ c.pcw ∧ c.dsw ≤ 16 ∧ c.ssw ≤ 16)

end Sys2Proof
end

