-- ==== Sys2Proof/Machine/State.lean ====
section
/-! DEFINITION. The machine state (10_state.md), the ways a step can stop (60_exceptions.md rule R226) and
the state after reset (R250). -/

namespace Sys2Proof.Machine

/-- A memory: pairs of an address and the 16-bit word there, addresses strictly rising and no word equal to
`Config.unlisted`, which every unlisted address reads as. The unit is the word, since each address names
one word and the machine has no byte order (R51, R57; log 8). -/
abbrev Memory := List (Nat × Word)

/-- A store to a device address, handed to the environment (R63, R229). -/
structure DeviceStore where
  addr : Nat
  value : Word
  deriving DecidableEq, Repr

/-- A taken jump or branch whose target is not reached yet: the instructions still to execute before it, and
the target (R7, R261; log 25). -/
structure Transfer where
  left : Nat
  target : Word
  deriving DecidableEq, Repr

/-- The complete state (10_state.md), the parameters of R7 and the two fields by which the model talks to
the environment. -/
structure State where
  /-- The parameters of R7; no step changes them (log 7). -/
  cfg : Config
  /-- The general registers r0 to r15 (R20). -/
  x : Vector Word 16
  /-- The program counter, an instruction address of PCW bits (R24; log 21). -/
  pc : Word
  /-- The Zero Flag (R28). -/
  zf : Bool
  /-- The Negative Flag (R28). -/
  nf : Bool
  /-- The Borrow Flag (R28). -/
  bf : Bool
  /-- The prefix latch (R31). -/
  pfx : Option (BitVec 12)
  /-- The transfers waiting for their delay slots, the next one first; always empty with DELAY_SLOTS = 0, the
  spec's value (R261; log 25). -/
  pending : List Transfer
  /-- The Data Segment register (R32). -/
  ds : Word
  /-- The Stack Segment register (R32). -/
  ss : Word
  /-- The instruction SRAM (R37). -/
  imem : Memory
  /-- The RAM words of data memory (R36). -/
  dmem : Memory
  /-- The stores handed to the environment, oldest first (R63, R229; log 10). -/
  deviceStores : List DeviceStore
  /-- The number of device loads so far, which makes each load's free value fresh (R229; log 9). -/
  envReads : Nat
  deriving DecidableEq, Repr

/-- Why a step faults: the model faults of R226. All are safe: the machine stops where the sources give no
meaning, and no state changes (R226). -/
inductive Fault where
  /-- Raised by `step`: the fetched word decodes to no instruction (R227). Safe. -/
  | illegalInstruction (pc : Word) (word : Word)
  /-- Raised by `step`: pc >= IMEM_WORDS (R228). Safe. -/
  | fetchOutOfRange (pc : Word)
  /-- Raised by an rr, bx or i12 instruction while a prefix is pending (R230), and by `step` at HALT_PC
  with a prefix pending (R231). Safe. -/
  | prefixMisuse (pc : Word)
  deriving DecidableEq, Repr

/-- Why there is no step and no fault. -/
inductive Refusal where
  /-- Raised by `exec` for an instruction that has no meaning yet. Safe. -/
  | notModelled (mnemonic : String)
  /-- Raised by `step` when pc = HALT_PC and no prefix is pending: the run is over and there is no step
  (R231, R265; log 12). Safe. -/
  | runOver (pc : Word)
  /-- Raised by a load or store to an address of class `absent`: no acknowledge ever comes and the thread
  is stuck for good, which is not a fault and not a step (R64, R229; log 11). Safe. -/
  | stuck (pc : Word) (addr : Nat)
  deriving DecidableEq, Repr

/-- What a step or an instruction answers. -/
abbrev Result := Host.Outcome State Fault Refusal

/-- The inputs of a launch (R238, R250): everything the sources leave free at the start of a run. -/
structure Launch where
  cfg : Config
  regs : Vector Word 16
  zf : Bool
  nf : Bool
  bf : Bool
  dsInit : Word
  ssInit : Word
  program : Memory
  ram : Memory
  deriving DecidableEq, Repr

/-- The state a launch starts in: pc = 0 and pfx = none (R238, R250, R251), and no transfer
pending. -/
def State.launch (l : Launch) : State where
  cfg := l.cfg
  x := l.regs
  pc := 0#16
  zf := l.zf
  nf := l.nf
  bf := l.bf
  pfx := none
  pending := []
  ds := l.dsInit
  ss := l.ssInit
  imem := l.program
  dmem := l.ram
  deviceStores := []
  envReads := 0

/-- The parameters at `State.reset`: the spec's defaults where it gives one (PCW, MEMMAP, JCOND, BX_UPPER, CODEC,
DELAY_SLOTS); IMEM_WORDS, DSW, SSW and HALT_PC are a DESIGN CHOICE (logs 3, 4, 12). -/
def Config.atReset : Config where
  pcw := 16
  imemWords := 65536
  dsw := 16
  ssw := 16
  memMap := []
  jcond := JumpTable.literal
  bxUpper := .zero
  codec := .specAssigned
  delaySlots := 0
  haltPc := none

/-- The machine right after reset (R250): pc = 0 and pfx = none as the spec says; general registers, flags,
DS, SS and the memories at values the spec leaves free, a DESIGN CHOICE (logs 1, 2, 3, 5, 6). -/
def State.reset : State :=
  State.launch
    { cfg := Config.atReset
      regs := Vector.replicate 16 0#16
      zf := false
      nf := false
      bf := false
      dsInit := 0#16
      ssInit := 0#16
      program := []
      ram := [] }

end Sys2Proof.Machine
end

