-- ==== Sys2Proof/Machine/Ops.lean ====
section
/-! DEFINITION. The named operations over registers, program counter, prefix latch and memory that every
meaning is written with. The spec has no exception entry or return (R220, R224, R225), so there is none
here: a model fault stops the run and changes no state (R226). -/

namespace Sys2Proof.Machine

/-! ## Memory (R51, R57) -/

/-- The word at an address. -/
def Memory.read : Memory → Nat → Word
  | [], _ => Config.unlisted
  | (b, w) :: rest, a => if b = a then w else Memory.read rest a

/-- The word `v` at address `a` in front of a memory, or nothing where `a` would read as `v` unlisted. -/
def Memory.entry (a : Nat) (v : Word) (m : Memory) : Memory :=
  if v = Config.unlisted then m else (a, v) :: m

/-- Writes a word, keeping the canonical form. -/
def Memory.write : Memory → Nat → Word → Memory
  | [], a, v => Memory.entry a v []
  | (b, w) :: rest, a, v =>
    if a < b then Memory.entry a v ((b, w) :: rest)
    else if a = b then Memory.entry a v rest
    else (b, w) :: Memory.write rest a v

/-- The canonical form: addresses strictly rising, no word equal to what an unlisted address reads as. -/
abbrev Memory.wf (m : Memory) : Prop :=
  m.Pairwise (fun c d => c.1 < d.1) ∧ ∀ c ∈ m, c.2 ≠ Config.unlisted

/-! ## Registers (R10, R20, R21) -/

def State.reg (s : State) (r : RegNum) : Word := s.x[r]

def State.setReg (s : State) (r : RegNum) (v : Word) : State := { s with x := s.x.set r v }

/-! ## Program counter and prefix latch (R25, R31) -/

/-- The low PCW bits of a 16-bit address (R9, R191). -/
def truncPc (c : Config) (t : Word) : Word := BitVec.ofNat 16 (t.toNat % 2 ^ c.pcw)

/-- (pc + 1) mod 2^PCW (R25, R26). -/
def State.pcNext (s : State) : Word := BitVec.ofNat 16 ((s.pc.toNat + 1) % 2 ^ s.cfg.pcw)

/-- The common epilogue (R25, R31, R135): no prefix left, pc to the next word. -/
def State.retire (s : State) : State := { s with pfx := none, pc := s.pcNext }

/-- The end of a taken jump or branch (R31, R181, R191): no prefix left, pc at the target. -/
def State.goTo (s : State) (target : Word) : State := { s with pfx := none, pc := target }

/-- R123, R230: an rr, bx or i12 instruction answers its next state only while no prefix is pending. -/
def State.unprefixed (s : State) (t : State) : Result :=
  match s.pfx with
  | none => .next t
  | some _ => .fault (.prefixMisuse s.pc)

/-! ## Data memory (R36, R53, R229) -/

/-- The segment register an instruction selects (R202). -/
def State.segment (s : State) : Seg → Word
  | .d => s.ds
  | .s => s.ss

/-- SEG ‖ ptr as a number: uint(SEG) * 65536 + uint(ptr) (R53). -/
def dataAddress (seg ptr : Word) : Nat := seg.toNat * 65536 + ptr.toNat

/-- The word of RAM at a data address. -/
def State.ramRead (s : State) (a : Nat) : Word := Memory.read s.dmem a

def State.ramWrite (s : State) (a : Nat) (v : Word) : State := { s with dmem := Memory.write s.dmem a v }

/-- A load of one word (MemRead of R11) into `rd`, by the class of its address (R229): RAM gives its word,
the environment answers for a device with a free value, and an absent address never acknowledges. -/
def State.load (s : State) (rd : RegNum) (a : Nat) : Result :=
  match classify s.cfg.memMap a with
  | .ram => .next (s.setReg rd (s.ramRead a)).retire
  | .device =>
    .next { (s.setReg rd (Config.deviceWord s.envReads a)).retire with envReads := s.envReads + 1 }
  | .absent => .refused (.stuck s.pc a)

/-- A store of one word (MemWrite of R11), by the class of its address (R229): RAM takes the word, a store
to a device is an event that changes no RAM, and an absent address never acknowledges. -/
def State.store (s : State) (a : Nat) (v : Word) : Result :=
  match classify s.cfg.memMap a with
  | .ram => .next (s.ramWrite a v).retire
  | .device => .next { s.retire with deviceStores := s.deviceStores ++ [⟨a, v⟩] }
  | .absent => .refused (.stuck s.pc a)

end Sys2Proof.Machine
end

