-- ==== Sys2Proof/Machine/Operands.lean ====
section
/-! DEFINITION. The operand forms: the immediate operand (R86), the routing of each format (R134), the data
address of a load or store (R52, R53) and the two roles of a store's registers (R204). -/

namespace Sys2Proof.Machine

/-- The immediate operand I (R13, R86). -/
def State.immediate (s : State) (imm : BitVec 4) : Word :=
  match s.pfx with
  | none => imm.signExtend 16
  | some p => p ++ imm

/-- A left input and a right input (R134). -/
abbrev Inputs := Word × Word

/-- rr: left `x[rd]`, right `x[rs]` (R83, R134). -/
def State.rrInputs (s : State) (rd rs : RegNum) : Inputs := (s.reg rd, s.reg rs)

/-- ri: left `I`, right `x[rd]` (R84, R134). -/
def State.riInputs (s : State) (rd : RegNum) (imm : BitVec 4) : Inputs := (s.immediate imm, s.reg rd)

/-- rri: left `x[rs]`, right `I` (R85, R134). -/
def State.rriInputs (s : State) (rs : RegNum) (imm : BitVec 4) : Inputs := (s.reg rs, s.immediate imm)

/-- The memory pointer (x[rs] - I) mod 2^16 (R52). -/
def State.pointer (s : State) (rs : RegNum) (imm : BitVec 4) : Word := s.reg rs - s.immediate imm

/-- The full address of a load or store (R53, R201). -/
def State.address (s : State) (seg : Seg) (base : RegNum) (imm : BitVec 4) : Nat :=
  dataAddress (s.segment seg) (s.pointer base imm)

/-- The register a store takes its data from: the first operand (R204, C7). The roles of the two register
fields of `sw` stand here alone, so that they could be swapped (N7). -/
def storeData (rd _rs : RegNum) : RegNum := rd

/-- The register a store forms its address from: the second operand (R204, C7). -/
def storeBase (_rd rs : RegNum) : RegNum := rs

end Sys2Proof.Machine
end

