-- ==== Sys2Proof/Machine/Flow.lean ====
section
/-! DEFINITION. Program flow control, 43_flow_control.md: the eight conditional jumps, br and brl. There is
no delay slot (R180, R261). -/

namespace Sys2Proof.Machine

/-- The pc of a taken conditional jump (R181): the 10-bit field zero-extended, or, under the other value of
BX_UPPER, within the jump's own 1024-word page (log 17). -/
def State.bxTarget (s : State) (addr : BitVec 10) : Word :=
  match s.cfg.bxUpper with
  | .zero => addr.setWidth 16
  | .keep => s.pc.extractLsb' 10 6 ++ addr

/-- Whether a conditional jump is taken: its entry of JCOND on the flags (R181, R190). -/
def State.taken (s : State) (c : Cond) : Bool := (s.cfg.jcond.test c).eval s.zf s.nf s.bf

/-- The common semantics of the conditional jumps (R181). -/
def State.condJump (s : State) (c : Cond) (addr : BitVec 10) : Result :=
  s.unprefixed (if s.taken c then s.goTo (s.bxTarget addr) else s.retire)

def execJnz (addr : BitVec 10) (s : State) : Result := s.condJump .jnz addr
def execJz (addr : BitVec 10) (s : State) : Result := s.condJump .jz addr
def execJl (addr : BitVec 10) (s : State) : Result := s.condJump .jl addr
def execJg (addr : BitVec 10) (s : State) : Result := s.condJump .jg addr
def execJb (addr : BitVec 10) (s : State) : Result := s.condJump .jb addr
def execJbe (addr : BitVec 10) (s : State) : Result := s.condJump .jbe addr
def execJa (addr : BitVec 10) (s : State) : Result := s.condJump .ja addr
def execJae (addr : BitVec 10) (s : State) : Result := s.condJump .jae addr

/-- A branch to a 16-bit target, of which the low PCW bits are kept (R191). -/
def State.branch (s : State) (target : Word) : State := s.goTo (truncPc s.cfg target)

/-- A branch that leaves the address of the next word in `rd`; the target was read before (R192). -/
def State.branchLink (s : State) (rd : RegNum) (target : Word) : State :=
  (s.setReg rd s.pcNext).branch target

def execBrRr (rs : RegNum) (s : State) : Result := s.unprefixed (s.branch (s.reg rs))

def execBrRi (imm : BitVec 4) (s : State) : Result := .next (s.branch (s.immediate imm))

def execBrlRr (rd rs : RegNum) (s : State) : Result := s.unprefixed (s.branchLink rd (s.reg rs))

def execBrlRi (rd : RegNum) (imm : BitVec 4) (s : State) : Result :=
  .next (s.branchLink rd (s.immediate imm))

end Sys2Proof.Machine
end

