-- ==== Sys2Proof/Machine/DelaySlots.lean ====
section
/-! DEFINITION. The parameter DELAY_SLOTS of R7 and R261: how many instructions are executed after a taken jump or
branch before its target. The meanings of the instructions are those of the spec, without slots; what stands
here is put around them by the step, and does nothing for DELAY_SLOTS = 0, the spec's value (R180; log 25). -/

namespace Sys2Proof.Machine

/-- Whether an instruction is a taken jump or a branch. -/
def State.transfersBy (s : State) : Instr → Bool
  | .jnz _ => s.taken .jnz
  | .jz _ => s.taken .jz
  | .jl _ => s.taken .jl
  | .jg _ => s.taken .jg
  | .jb _ => s.taken .jb
  | .jbe _ => s.taken .jbe
  | .ja _ => s.taken .ja
  | .jae _ => s.taken .jae
  | .brRr _ | .brlRr _ _ | .brRi _ | .brlRi _ _ => true
  | _ => false

/-- The target reached after one more instruction, if its last slot is that instruction. -/
def dueTarget : List Transfer → Option Word
  | [] => none
  | p :: _ => if p.left ≤ 1 then some p.target else none

def Transfer.countDown (p : Transfer) : Transfer := { p with left := p.left - 1 }

/-- The pending transfers after one more instruction. -/
def countDownAll : List Transfer → List Transfer
  | [] => []
  | p :: ps => if p.left ≤ 1 then ps.map Transfer.countDown else (p :: ps).map Transfer.countDown

/-- The transfer an instruction that led from `s` to `t` leaves pending. -/
def State.newTransfer (s : State) (i : Instr) (t : State) : List Transfer :=
  if s.transfersBy i then [⟨s.cfg.delaySlots, t.pc⟩] else []

/-- The state after the instruction `i`, which led from `s` to `t`, with its slots: pc goes to the next word, or
to the target that is due, and a target of `i` itself waits. -/
def State.settle (s : State) (i : Instr) (t : State) : State :=
  if s.cfg.delaySlots = 0 then t
  else
    { t with
      pc := (dueTarget s.pending).getD s.pcNext
      pending := countDownAll s.pending ++ s.newTransfer i t }

/-- The outcome of an instruction with its slots; a stop stays a stop. -/
def State.delay (s : State) (i : Instr) : Result → Result
  | .next t => .next (s.settle i t)
  | .fault f => .fault f
  | .refused r => .refused r

end Sys2Proof.Machine
end

