-- ==== Sys2Proof/Machine/Flags.lean ====
section
/-! DEFINITION. Subtraction, its borrow and the three flags (R130 to R133). -/

namespace Sys2Proof.Machine

/-- diff(a, b, bin), computed on integers and narrowed to 16 bits (R130). -/
def diff (a b : Word) (bin : Bool) : Word := BitVec.ofInt 16 ((a.toNat : Int) - b.toNat - bin.toNat)

/-- borrow(a, b, bin), on unbounded integers (R130). -/
def borrow (a b : Word) (bin : Bool) : Bool := decide (a.toNat < b.toNat + bin.toNat)

/-- The flags a subtract-based flag-setting instruction writes: NF and BF (R29, R131, R132). -/
def State.setSubFlags (s : State) (a b : Word) (bin : Bool) : State :=
  { s with nf := (diff a b bin).msb, bf := borrow a b bin }

/-- The flag a bitwise flag-setting instruction with result `r` writes: ZF (R29, R133). -/
def State.setZeroFlag (s : State) (r : Word) : State := { s with zf := decide (r = 0#16) }

end Sys2Proof.Machine
end

