-- ==== Sys2Proof/Machine/Bitwise.lean ====
section
/-! DEFINITION. The bitwise family of 41_alu.md: and, andc, nand, nandc, or, orc, xor, xorc. -/

namespace Sys2Proof.Machine

/-! ## The shared effects -/

/-- A bitwise result into `rd`: no flag written (R153, R155, R157, R159). -/
def State.bitwise (s : State) (rd : RegNum) (r : Word) : State := (s.setReg rd r).retire

/-- A bitwise result into `rd`, setting ZF (R154, R156, R158, R160). -/
def State.bitwiseFlags (s : State) (rd : RegNum) (r : Word) : State :=
  ((s.setReg rd r).setZeroFlag r).retire

def Inputs.and (ab : Inputs) : Word := ab.1 &&& ab.2
/-- All 16 bits complemented (R155). -/
def Inputs.nand (ab : Inputs) : Word := ~~~(ab.1 &&& ab.2)
def Inputs.or (ab : Inputs) : Word := ab.1 ||| ab.2
def Inputs.xor (ab : Inputs) : Word := ab.1 ^^^ ab.2

/-! ## and (R153, R154) -/

def execAndRr (rd rs : RegNum) (s : State) : Result :=
  s.unprefixed (s.bitwise rd (Inputs.and (s.rrInputs rd rs)))

def execAndRi (rd : RegNum) (imm : BitVec 4) (s : State) : Result :=
  .next (s.bitwise rd (Inputs.and (s.riInputs rd imm)))

def execAndcRr (rd rs : RegNum) (s : State) : Result :=
  s.unprefixed (s.bitwiseFlags rd (Inputs.and (s.rrInputs rd rs)))

def execAndcRi (rd : RegNum) (imm : BitVec 4) (s : State) : Result :=
  .next (s.bitwiseFlags rd (Inputs.and (s.riInputs rd imm)))

/-! ## nand (R155, R156) -/

def execNandRr (rd rs : RegNum) (s : State) : Result :=
  s.unprefixed (s.bitwise rd (Inputs.nand (s.rrInputs rd rs)))

def execNandRi (rd : RegNum) (imm : BitVec 4) (s : State) : Result :=
  .next (s.bitwise rd (Inputs.nand (s.riInputs rd imm)))

def execNandcRr (rd rs : RegNum) (s : State) : Result :=
  s.unprefixed (s.bitwiseFlags rd (Inputs.nand (s.rrInputs rd rs)))

def execNandcRi (rd : RegNum) (imm : BitVec 4) (s : State) : Result :=
  .next (s.bitwiseFlags rd (Inputs.nand (s.riInputs rd imm)))

/-! ## or (R157, R158) -/

def execOrRr (rd rs : RegNum) (s : State) : Result :=
  s.unprefixed (s.bitwise rd (Inputs.or (s.rrInputs rd rs)))

def execOrRi (rd : RegNum) (imm : BitVec 4) (s : State) : Result :=
  .next (s.bitwise rd (Inputs.or (s.riInputs rd imm)))

def execOrcRr (rd rs : RegNum) (s : State) : Result :=
  s.unprefixed (s.bitwiseFlags rd (Inputs.or (s.rrInputs rd rs)))

def execOrcRi (rd : RegNum) (imm : BitVec 4) (s : State) : Result :=
  .next (s.bitwiseFlags rd (Inputs.or (s.riInputs rd imm)))

/-! ## xor (R159, R160) -/

def execXorRr (rd rs : RegNum) (s : State) : Result :=
  s.unprefixed (s.bitwise rd (Inputs.xor (s.rrInputs rd rs)))

def execXorRi (rd : RegNum) (imm : BitVec 4) (s : State) : Result :=
  .next (s.bitwise rd (Inputs.xor (s.riInputs rd imm)))

def execXorcRr (rd rs : RegNum) (s : State) : Result :=
  s.unprefixed (s.bitwiseFlags rd (Inputs.xor (s.rrInputs rd rs)))

def execXorcRi (rd : RegNum) (imm : BitVec 4) (s : State) : Result :=
  .next (s.bitwiseFlags rd (Inputs.xor (s.riInputs rd imm)))

end Sys2Proof.Machine
end

