-- ==== Sys2Proof/Machine/LoadStore.lean ====
section
/-! DEFINITION. Loads and stores, 44_load_store.md: lw.d, lw.s, sw.d, sw.s. -/

namespace Sys2Proof.Machine

def execLwD (rd rs : RegNum) (imm : BitVec 4) (s : State) : Result := s.load rd (s.address .d rs imm)

def execLwS (rd rs : RegNum) (imm : BitVec 4) (s : State) : Result := s.load rd (s.address .s rs imm)

def execSwD (rd rs : RegNum) (imm : BitVec 4) (s : State) : Result :=
  s.store (s.address .d (storeBase rd rs) imm) (s.reg (storeData rd rs))

def execSwS (rd rs : RegNum) (imm : BitVec 4) (s : State) : Result :=
  s.store (s.address .s (storeBase rd rs) imm) (s.reg (storeData rd rs))

end Sys2Proof.Machine
end

