-- ==== Sys2Proof/Machine/Multiply.lean ====
section
/-! DEFINITION. The multiply family of 42_multiply.md: mull, mulh. -/

namespace Sys2Proof.Machine

/-- The product P of the two inputs read as unsigned integers (R170). -/
def Inputs.product (ab : Inputs) : Nat := ab.1.toNat * ab.2.toNat

/-- P[15:0] (R171). -/
def Inputs.productLow (ab : Inputs) : Word := BitVec.ofNat 16 (Inputs.product ab % 2 ^ 16)

/-- P[31:16] (R172). -/
def Inputs.productHigh (ab : Inputs) : Word := BitVec.ofNat 16 (Inputs.product ab / 2 ^ 16)

/-- Half of a product into `rd`; no flag written (R171, R172). -/
def State.multiply (s : State) (rd : RegNum) (r : Word) : State := (s.setReg rd r).retire

def execMullRr (rd rs : RegNum) (s : State) : Result :=
  s.unprefixed (s.multiply rd (Inputs.productLow (s.rrInputs rd rs)))

def execMullRi (rd : RegNum) (imm : BitVec 4) (s : State) : Result :=
  .next (s.multiply rd (Inputs.productLow (s.riInputs rd imm)))

def execMulhRr (rd rs : RegNum) (s : State) : Result :=
  s.unprefixed (s.multiply rd (Inputs.productHigh (s.rrInputs rd rs)))

def execMulhRi (rd : RegNum) (imm : BitVec 4) (s : State) : Result :=
  .next (s.multiply rd (Inputs.productHigh (s.riInputs rd imm)))

end Sys2Proof.Machine
end

