-- ==== Sys2Proof/Machine/PrefixI12.lean ====
section
/-! DEFINITION. The immediate prefix, 40_prefix_i12.md: i12. -/

namespace Sys2Proof.Machine

/-- The prefix latch takes the 12 bits; pc to the next word (R120). -/
def State.latchPrefix (s : State) (imm : BitVec 12) : State := { s with pfx := some imm, pc := s.pcNext }

def execI12 (imm : BitVec 12) (s : State) : Result := s.unprefixed (s.latchPrefix imm)

end Sys2Proof.Machine
end

