-- ==== Sys2Proof/Machine/Subtract.lean ====
section
/-! DEFINITION. The subtract family of 41_alu.md: subi, subic, sub, subc, sbb, sbbc, cmp and the short-hands
dec, decc, inc, incc, neg, negc. -/

namespace Sys2Proof.Machine

/-! ## The shared effects -/

/-- A plain subtraction into `rd`: no flag written (R140, R146, R148). -/
def State.subtract (s : State) (rd : RegNum) (ab : Inputs) (bin : Bool) : State :=
  (s.setReg rd (diff ab.1 ab.2 bin)).retire

/-- A flag-setting subtraction into `rd`: NF and BF written (R141, R147, R149). -/
def State.subtractFlags (s : State) (rd : RegNum) (ab : Inputs) (bin : Bool) : State :=
  ((s.setReg rd (diff ab.1 ab.2 bin)).setSubFlags ab.1 ab.2 bin).retire

/-- A compare: ZF from the exclusive or, NF and BF from the subtraction, no register written (R152). -/
def State.compare (s : State) (ab : Inputs) : State :=
  ((s.setZeroFlag (ab.1 ^^^ ab.2)).setSubFlags ab.1 ab.2 false).retire

/-! ## Three operands (R140, R141) -/

def execSubi (rd rs : RegNum) (imm : BitVec 4) (s : State) : Result :=
  .next (s.subtract rd (s.rriInputs rs imm) false)

def execSubic (rd rs : RegNum) (imm : BitVec 4) (s : State) : Result :=
  .next (s.subtractFlags rd (s.rriInputs rs imm) false)

/-! ## Short-hands of subi and subic (R142 to R145, R110) -/

/-- `subi rd, rd, 1` (R142). -/
def execDec (rd : RegNum) (s : State) : Result :=
  .next (s.subtract rd (s.rriInputs rd 1#4) false)

/-- `subic rd, rd, 1` (R143). -/
def execDecc (rd : RegNum) (s : State) : Result :=
  .next (s.subtractFlags rd (s.rriInputs rd 1#4) false)

/-- `subi rd, rd, -1`, whose 4-bit field is 0xF (R144, R105). -/
def execInc (rd : RegNum) (s : State) : Result :=
  .next (s.subtract rd (s.rriInputs rd 0xF#4) false)

/-- `subic rd, rd, -1` (R145). -/
def execIncc (rd : RegNum) (s : State) : Result :=
  .next (s.subtractFlags rd (s.rriInputs rd 0xF#4) false)

/-! ## Two operands (R146 to R149) -/

def execSubRr (rd rs : RegNum) (s : State) : Result :=
  s.unprefixed (s.subtract rd (s.rrInputs rd rs) false)

def execSubRi (rd : RegNum) (imm : BitVec 4) (s : State) : Result :=
  .next (s.subtract rd (s.riInputs rd imm) false)

def execSubcRr (rd rs : RegNum) (s : State) : Result :=
  s.unprefixed (s.subtractFlags rd (s.rrInputs rd rs) false)

def execSubcRi (rd : RegNum) (imm : BitVec 4) (s : State) : Result :=
  .next (s.subtractFlags rd (s.riInputs rd imm) false)

def execSbbRr (rd rs : RegNum) (s : State) : Result :=
  s.unprefixed (s.subtract rd (s.rrInputs rd rs) s.bf)

def execSbbRi (rd : RegNum) (imm : BitVec 4) (s : State) : Result :=
  .next (s.subtract rd (s.riInputs rd imm) s.bf)

def execSbbcRr (rd rs : RegNum) (s : State) : Result :=
  s.unprefixed (s.subtractFlags rd (s.rrInputs rd rs) s.bf)

def execSbbcRi (rd : RegNum) (imm : BitVec 4) (s : State) : Result :=
  .next (s.subtractFlags rd (s.riInputs rd imm) s.bf)

/-! ## Short-hands of sub and subc (R150, R151, R110) -/

/-- `sub rd, 0` (R150). -/
def execNeg (rd : RegNum) (s : State) : Result :=
  .next (s.subtract rd (s.riInputs rd 0#4) false)

/-- `subc rd, 0` (R151). -/
def execNegc (rd : RegNum) (s : State) : Result :=
  .next (s.subtractFlags rd (s.riInputs rd 0#4) false)

/-! ## Compare (R152) -/

def execCmpRr (rd rs : RegNum) (s : State) : Result := s.unprefixed (s.compare (s.rrInputs rd rs))

def execCmpRi (rd : RegNum) (imm : BitVec 4) (s : State) : Result := .next (s.compare (s.riInputs rd imm))

end Sys2Proof.Machine
end

