-- ==== Sys2Proof/Machine/Dispatch.lean ====
section
/-! DEFINITION. One arm for each instruction: a direct call of its meaning. -/

namespace Sys2Proof.Machine

/-- The effect of one instruction (R15, R231 step 5). -/
def exec (i : Instr) (s : State) : Host.Outcome State Fault Refusal :=
  match i with
  | .subi rd rs imm => Sys2Proof.Machine.execSubi rd rs imm s
  | .subic rd rs imm => Sys2Proof.Machine.execSubic rd rs imm s
  | .lwD rd rs imm => Sys2Proof.Machine.execLwD rd rs imm s
  | .lwS rd rs imm => Sys2Proof.Machine.execLwS rd rs imm s
  | .swD rd rs imm => Sys2Proof.Machine.execSwD rd rs imm s
  | .swS rd rs imm => Sys2Proof.Machine.execSwS rd rs imm s
  | .subRr rd rs => Sys2Proof.Machine.execSubRr rd rs s
  | .subcRr rd rs => Sys2Proof.Machine.execSubcRr rd rs s
  | .sbbRr rd rs => Sys2Proof.Machine.execSbbRr rd rs s
  | .sbbcRr rd rs => Sys2Proof.Machine.execSbbcRr rd rs s
  | .andRr rd rs => Sys2Proof.Machine.execAndRr rd rs s
  | .andcRr rd rs => Sys2Proof.Machine.execAndcRr rd rs s
  | .nandRr rd rs => Sys2Proof.Machine.execNandRr rd rs s
  | .nandcRr rd rs => Sys2Proof.Machine.execNandcRr rd rs s
  | .orRr rd rs => Sys2Proof.Machine.execOrRr rd rs s
  | .orcRr rd rs => Sys2Proof.Machine.execOrcRr rd rs s
  | .xorRr rd rs => Sys2Proof.Machine.execXorRr rd rs s
  | .xorcRr rd rs => Sys2Proof.Machine.execXorcRr rd rs s
  | .mullRr rd rs => Sys2Proof.Machine.execMullRr rd rs s
  | .mulhRr rd rs => Sys2Proof.Machine.execMulhRr rd rs s
  | .cmpRr rd rs => Sys2Proof.Machine.execCmpRr rd rs s
  | .subRi rd imm => Sys2Proof.Machine.execSubRi rd imm s
  | .subcRi rd imm => Sys2Proof.Machine.execSubcRi rd imm s
  | .sbbRi rd imm => Sys2Proof.Machine.execSbbRi rd imm s
  | .sbbcRi rd imm => Sys2Proof.Machine.execSbbcRi rd imm s
  | .andRi rd imm => Sys2Proof.Machine.execAndRi rd imm s
  | .andcRi rd imm => Sys2Proof.Machine.execAndcRi rd imm s
  | .nandRi rd imm => Sys2Proof.Machine.execNandRi rd imm s
  | .nandcRi rd imm => Sys2Proof.Machine.execNandcRi rd imm s
  | .orRi rd imm => Sys2Proof.Machine.execOrRi rd imm s
  | .orcRi rd imm => Sys2Proof.Machine.execOrcRi rd imm s
  | .xorRi rd imm => Sys2Proof.Machine.execXorRi rd imm s
  | .xorcRi rd imm => Sys2Proof.Machine.execXorcRi rd imm s
  | .mullRi rd imm => Sys2Proof.Machine.execMullRi rd imm s
  | .mulhRi rd imm => Sys2Proof.Machine.execMulhRi rd imm s
  | .cmpRi rd imm => Sys2Proof.Machine.execCmpRi rd imm s
  | .jnz addr => Sys2Proof.Machine.execJnz addr s
  | .jz addr => Sys2Proof.Machine.execJz addr s
  | .jl addr => Sys2Proof.Machine.execJl addr s
  | .jg addr => Sys2Proof.Machine.execJg addr s
  | .jb addr => Sys2Proof.Machine.execJb addr s
  | .jbe addr => Sys2Proof.Machine.execJbe addr s
  | .ja addr => Sys2Proof.Machine.execJa addr s
  | .jae addr => Sys2Proof.Machine.execJae addr s
  | .brRr rs => Sys2Proof.Machine.execBrRr rs s
  | .brlRr rd rs => Sys2Proof.Machine.execBrlRr rd rs s
  | .brRi imm => Sys2Proof.Machine.execBrRi imm s
  | .brlRi rd imm => Sys2Proof.Machine.execBrlRi rd imm s
  | .i12 imm => Sys2Proof.Machine.execI12 imm s
  | .dec rd => Sys2Proof.Machine.execDec rd s
  | .decc rd => Sys2Proof.Machine.execDecc rd s
  | .inc rd => Sys2Proof.Machine.execInc rd s
  | .incc rd => Sys2Proof.Machine.execIncc rd s
  | .neg rd => Sys2Proof.Machine.execNeg rd s
  | .negc rd => Sys2Proof.Machine.execNegc rd s

end Sys2Proof.Machine
end

