-- ==== Sys2Proof/Machine/Fetch.lean ====
section
/-! DEFINITION. The checks before an instruction runs, in the order of R231 steps 1 to 3, and placing a word
of the program where the machine fetches next. -/

namespace Sys2Proof.Machine

/-- What the checks before execution answer. -/
inductive Fetched where
  /-- an instruction to execute -/
  | instr (i : Instr)
  /-- a model fault -/
  | fault (f : Fault)
  /-- pc = HALT_PC with no prefix pending: the run is over, no step -/
  | over
  deriving DecidableEq, Repr

/-- IFetch(pc), the instruction word at pc (R65). -/
def State.fetchWord (s : State) : Word := Memory.read s.imem s.pc.toNat

/-- R231 steps 2 and 3: the fetch range, then decoding under CODEC (R227, R228, R90). -/
def State.fetchDecode (s : State) : Fetched :=
  if s.cfg.imemWords ≤ s.pc.toNat then .fault (.fetchOutOfRange s.pc)
  else
    match s.cfg.codec.decode s.fetchWord with
    | .ok i => .instr i
    | .error _ => .fault (.illegalInstruction s.pc s.fetchWord)

/-- R231 step 1, then steps 2 and 3. -/
def State.fetch (s : State) : Fetched :=
  if s.cfg.haltPc = some s.pc then
    match s.pfx with
    | none => .over
    | some _ => .fault (.prefixMisuse s.pc)
  else s.fetchDecode

/-- The state with the word `w` at the instruction address pc (log 20). -/
def State.placeWord (s : State) (w : Word) : State := { s with imem := Memory.write s.imem s.pc.toNat w }

/-- A memory that holds the words of a list from an address on: the program text of a launch (R238). -/
def Memory.ofWords : Nat → List Word → Memory
  | _, [] => []
  | a, w :: ws => Memory.entry a w (Memory.ofWords (a + 1) ws)

end Sys2Proof.Machine
end

