-- ==== Sys2Proof/Machine/Step.lean ====
section
/-! DEFINITION. One step of the machine (R231), and the state in which the next step fetches a given word. -/

namespace Sys2Proof.Machine

/-- R231: the checks of steps 1 to 3, then the instruction, whose meaning makes the check of step 4,
and the delay slots of R261 around it. -/
def step (s : State) : Host.Outcome State Fault Refusal :=
  match s.fetch with
  | .instr i => s.delay i (exec i s)
  | .fault f => .fault f
  | .over => .refused (.runOver s.pc)

/-- `s` with the instruction of the bits `w` at pc in the instruction SRAM: one 16-bit word, the bits at and
above `nbits` zero (log 20). -/
def State.withFetchWord (s : State) (nbits w : Nat) : State := s.placeWord (BitVec.ofNat 16 (w % 2 ^ nbits))

end Sys2Proof.Machine
end

