-- ==== Sys2Proof/Machine/Assembler.lean ====
section
/-! DEFINITION. The assembly language of R103 to R110 over abstract syntax: an operand is a register or an
evaluated number. AssemblerText.lean reads a line of text into it (R101, R102; log 23). -/

namespace Sys2Proof.Machine

/-- Why a statement does not assemble (R105, R108, R90). -/
inductive AsmError where
  /-- an immediate outside -8 to 7, or -8 to 15 after an `i12` line -/
  | immediateRange (v : Int)
  /-- an `i12` operand outside -2048 to 0xFFF -/
  | prefixRange (v : Int)
  /-- a jump target outside 0 to 1023 -/
  | targetRange (v : Int)
  /-- an instruction for which CODEC has no word -/
  | noWord (i : Instr)
  deriving DecidableEq, Repr

/-- The second operand of a two-operand mnemonic: it chooses the rr or the ri form (R104). -/
inductive Source where
  | reg (r : RegNum)
  | num (v : Int)
  deriving DecidableEq, Repr

/-- The spellings of a memory operand (R106): `[rs-k]`, `[rs+k]`, `[rs]` and `rs, k`. -/
inductive MemOperand where
  | minus (rs : RegNum) (k : Int)
  | plus (rs : RegNum) (k : Int)
  | bare (rs : RegNum)
  | plain (rs : RegNum) (k : Int)
  deriving DecidableEq, Repr

/-- The spellings of the segment (R107): no suffix, `.d`, `.s`, `.sf`. -/
inductive Suffix where
  | absent | d | s | sf
  deriving DecidableEq, Repr

/-- A statement of the assembly language (R101, R104). -/
inductive Stmt where
  | subi (rd rs : RegNum) (v : Int)
  | subic (rd rs : RegNum) (v : Int)
  | alu (op : AluOp) (rd : RegNum) (src : Source)
  | lw (suffix : Suffix) (rd : RegNum) (mem : MemOperand)
  | sw (suffix : Suffix) (rd : RegNum) (mem : MemOperand)
  | jump (c : Cond) (target : Int)
  | br (target : Source)
  | brl (rd : RegNum) (target : Source)
  | i12 (v : Int)
  | dec (rd : RegNum)
  | decc (rd : RegNum)
  | inc (rd : RegNum)
  | incc (rd : RegNum)
  | neg (rd : RegNum)
  | negc (rd : RegNum)
  deriving DecidableEq, Repr

/-- The segment a suffix selects (R107, C2). -/
def Suffix.seg : Suffix → Seg
  | .absent => .d
  | .d => .d
  | .s => .s
  | .sf => .s

/-- The base register of a memory operand (R106). -/
def MemOperand.base : MemOperand → RegNum
  | .minus rs _ => rs
  | .plus rs _ => rs
  | .bare rs => rs
  | .plain rs _ => rs

/-- The immediate of a memory operand: the hardware subtracts it (R106). -/
def MemOperand.offset : MemOperand → Int
  | .minus _ k => k
  | .plus _ k => -k
  | .bare _ => 0
  | .plain _ k => k

/-- The low four bits of an immediate in range (R105); `prefixed` says that an `i12` line stands before. -/
def asmImm (prefixed : Bool) (v : Int) : Except AsmError (BitVec 4) :=
  if -8 ≤ v ∧ v ≤ (if prefixed then 15 else 7) then .ok (BitVec.ofInt 4 v) else .error (.immediateRange v)

/-- The operand of `i12`, encoded modulo 4096 (R105). -/
def asmPrefix (v : Int) : Except AsmError (BitVec 12) :=
  if -2048 ≤ v ∧ v ≤ 4095 then .ok (BitVec.ofInt 12 v) else .error (.prefixRange v)

/-- The target of a conditional jump (R108). -/
def asmTarget (v : Int) : Except AsmError (BitVec 10) :=
  if 0 ≤ v ∧ v ≤ 1023 then .ok (BitVec.ofInt 10 v) else .error (.targetRange v)

def loadOf : Seg → RegNum → RegNum → BitVec 4 → Instr
  | .d => Instr.lwD
  | .s => Instr.lwS

def storeOf : Seg → RegNum → RegNum → BitVec 4 → Instr
  | .d => Instr.swD
  | .s => Instr.swS

/-- The instruction of a statement (R103 to R110). -/
def assemble (prefixed : Bool) : Stmt → Except AsmError Instr
  | .subi rd rs v => (asmImm prefixed v).map (Instr.subi rd rs)
  | .subic rd rs v => (asmImm prefixed v).map (Instr.subic rd rs)
  | .alu op rd (.reg rs) => .ok (op.rr rd rs)
  | .alu op rd (.num v) => (asmImm prefixed v).map (op.ri rd)
  | .lw x rd m => (asmImm prefixed m.offset).map (loadOf x.seg rd m.base)
  | .sw x rd m => (asmImm prefixed m.offset).map (storeOf x.seg rd m.base)
  | .jump c t => (asmTarget t).map c.jump
  | .br (.reg rs) => .ok (.brRr rs)
  | .br (.num v) => (asmImm prefixed v).map Instr.brRi
  | .brl rd (.reg rs) => .ok (.brlRr rd rs)
  | .brl rd (.num v) => (asmImm prefixed v).map (Instr.brlRi rd)
  | .i12 v => (asmPrefix v).map Instr.i12
  | .dec rd => .ok (.dec rd)
  | .decc rd => .ok (.decc rd)
  | .inc rd => .ok (.inc rd)
  | .incc rd => .ok (.incc rd)
  | .neg rd => .ok (.neg rd)
  | .negc rd => .ok (.negc rd)

/-- Whether a statement is an `i12` line. -/
def Stmt.isPrefix : Stmt → Bool
  | .i12 _ => true
  | _ => false

/-- The words of a program under a codec, one a statement; no prefix is inserted (R105). -/
def assembleProgram (c : Codec) : (prefixed : Bool) → List Stmt → Except AsmError (List Word)
  | _, [] => .ok []
  | prefixed, line :: rest =>
    match assemble prefixed line, assembleProgram c line.isPrefix rest with
    | .ok i, .ok ws =>
      match c.encode i with
      | some w => .ok (w :: ws)
      | none => .error (.noWord i)
    | .error e, _ => .error e
    | .ok _, .error e => .error e

end Sys2Proof.Machine
end

