-- ==== Sys2Proof/Machine/Environment.lean ====
section
/-! DEFINITION. What the platform can do to the machine between two steps: another bus master's write to
RAM, an input event (R16, R63, D20). No step calls it (log 13). -/

namespace Sys2Proof.Machine

/-- Another bus master writes a word of RAM; an address that is not RAM holds no word of the model. -/
def State.externalWrite (s : State) (a : Nat) (v : Word) : State :=
  match classify s.cfg.memMap a with
  | .ram => s.ramWrite a v
  | .device => s
  | .absent => s

end Sys2Proof.Machine
end

