-- ==== Sys2Proof/Safety.lean ====
section
/-! DEFINITION. The terms the statements are written in: the invariant of the machine, what an
instruction leaves unchanged, and the tables of R29 and R28. -/

namespace Sys2Proof.Machine

/-! ## Invariants -/

/-- What every step keeps: the parameters in the ranges of R7, pc of PCW bits (R24), DS and SS of DSW and
SSW bits (R32), both memories in canonical form, and data memory listing only RAM addresses of at most
SEGW + 16 bits (R36, R229), and the pending transfers
ordered by their slots, of which each has between 1 and DELAY_SLOTS (R261), so that there are none for
DELAY_SLOTS = 0. -/
structure State.Inv (s : State) : Prop where
  params : s.cfg.wf = true
  pc : s.pc.toNat < 2 ^ s.cfg.pcw
  ds : s.ds.toNat < 2 ^ s.cfg.dsw
  ss : s.ss.toNat < 2 ^ s.cfg.ssw
  imem : Memory.wf s.imem
  dmem : Memory.wf s.dmem
  ram : ∀ c ∈ s.dmem, classify s.cfg.memMap c.1 = .ram
  range : ∀ c ∈ s.dmem, c.1 < 2 ^ (max s.cfg.dsw s.cfg.ssw + 16)
  slots : s.pending.Pairwise fun p q => p.left < q.left
  due : ∀ p ∈ s.pending, 1 ≤ p.left ∧ p.left ≤ s.cfg.delaySlots ∧ p.target.toNat < 2 ^ s.cfg.pcw
  events : ∀ e ∈ s.deviceStores, classify s.cfg.memMap e.addr = .device

/-- The launches R238 allows: parameters in range, DS_INIT and SS_INIT of DSW and SSW bits, memories in
canonical form, RAM contents at RAM addresses. -/
structure Launch.Inv (l : Launch) : Prop where
  params : l.cfg.wf = true
  ds : l.dsInit.toNat < 2 ^ l.cfg.dsw
  ss : l.ssInit.toNat < 2 ^ l.cfg.ssw
  program : Memory.wf l.program
  ram : Memory.wf l.ram
  ramClass : ∀ c ∈ l.ram, classify l.cfg.memMap c.1 = .ram
  range : ∀ c ∈ l.ram, c.1 < 2 ^ (max l.cfg.dsw l.cfg.ssw + 16)

/-! ## Answers -/

/-- The outcome is a next state that meets `P`. -/
def Answers (o : Result) (P : State → Prop) : Prop := ∃ t, o = .next t ∧ P t

/-! ## Frames -/

/-- Every general register but `rd` is unchanged. -/
def OtherRegs (rd : RegNum) (s t : State) : Prop := ∀ r, r ≠ rd → t.reg r = s.reg r

/-- Every general register is unchanged. -/
def SameRegs (s t : State) : Prop := ∀ r, t.reg r = s.reg r

/-- The three flags are unchanged. -/
def SameFlags (s t : State) : Prop := t.zf = s.zf ∧ t.nf = s.nf ∧ t.bf = s.bf

/-- The segment registers, the parameters and the pending transfers are unchanged, and every instruction word reads as before. -/
def SameSystem (s t : State) : Prop :=
  t.ds = s.ds ∧ t.ss = s.ss ∧ t.cfg = s.cfg ∧ t.pending = s.pending ∧ ∀ a, Memory.read t.imem a = Memory.read s.imem a

/-- Every word of data memory reads as before and nothing was exchanged with a device. -/
def SameData (s t : State) : Prop :=
  (∀ a, t.ramRead a = s.ramRead a) ∧ t.deviceStores = s.deviceStores ∧ t.envReads = s.envReads

/-- No prefix is pending and pc is (pc + 1) mod 2^PCW (R25, R31, R135). -/
def Retired (s t : State) : Prop :=
  t.pfx = none ∧ t.pc.toNat = (s.pc.toNat + 1) % 2 ^ s.cfg.pcw

/-- The frame of an instruction that writes one general register and goes to the next word. -/
def WritesOnly (rd : RegNum) (s t : State) : Prop :=
  OtherRegs rd s t ∧ SameSystem s t ∧ SameData s t ∧ Retired s t

/-- Everything but pc and the prefix latch is unchanged. -/
def SameButPc (s t : State) : Prop := SameRegs s t ∧ SameFlags s t ∧ SameSystem s t ∧ SameData s t

/-! ## Values -/

/-- `r` is diff(a, b, bin) of R130. -/
def IsDiff (a b : Word) (bin : Bool) (r : Word) : Prop :=
  (r.toNat : Int) = ((a.toNat : Int) - b.toNat - bin.toNat) % 65536

/-- borrow(a, b, bin) of R130. -/
def Borrows (a b : Word) (bin : Bool) : Bool := decide (a.toNat < b.toNat + bin.toNat)

/-! ## Effects: what an instruction with destination `rd`, left input `a` and right input `b` does to `s` -/

/-- A subtraction that writes no flag. -/
def PlainDiff (bin : State → Bool) (s : State) (rd : RegNum) (a b : Word) (t : State) : Prop :=
  IsDiff a b (bin s) (t.reg rd) ∧ WritesOnly rd s t ∧ SameFlags s t

/-- A subtraction that writes NF (R132) and BF (R131) and leaves ZF. -/
def FlagDiff (bin : State → Bool) (s : State) (rd : RegNum) (a b : Word) (t : State) : Prop :=
  IsDiff a b (bin s) (t.reg rd) ∧ WritesOnly rd s t ∧
    t.nf = (t.reg rd).getLsbD 15 ∧ t.bf = Borrows a b (bin s) ∧ t.zf = s.zf

/-- A compare (R152): ZF says that the inputs are equal, NF and BF come from the difference, and no register
is written. -/
def Compares (s : State) (_rd : RegNum) (a b : Word) (t : State) : Prop :=
  t.zf = decide (a = b) ∧ (∃ r, IsDiff a b false r ∧ t.nf = r.getLsbD 15) ∧ t.bf = Borrows a b false ∧
    SameRegs s t ∧ SameSystem s t ∧ SameData s t ∧ Retired s t

/-- A bitwise operation, bit by bit, that writes no flag. -/
def PlainBits (f : Bool → Bool → Bool) (s : State) (rd : RegNum) (a b : Word) (t : State) : Prop :=
  (∀ n, n < 16 → (t.reg rd).getLsbD n = f (a.getLsbD n) (b.getLsbD n)) ∧ WritesOnly rd s t ∧ SameFlags s t

/-- A bitwise operation, bit by bit, that writes ZF (R133) and leaves NF and BF. -/
def FlagBits (f : Bool → Bool → Bool) (s : State) (rd : RegNum) (a b : Word) (t : State) : Prop :=
  (∀ n, n < 16 → (t.reg rd).getLsbD n = f (a.getLsbD n) (b.getLsbD n)) ∧ WritesOnly rd s t ∧
    t.zf = decide ((t.reg rd).toNat = 0) ∧ t.nf = s.nf ∧ t.bf = s.bf

/-- The low half of the unsigned product (R171); no flag written. -/
def ProductLow (s : State) (rd : RegNum) (a b : Word) (t : State) : Prop :=
  (t.reg rd).toNat = a.toNat * b.toNat % 65536 ∧ WritesOnly rd s t ∧ SameFlags s t

/-- The high half of the unsigned product (R172); no flag written. -/
def ProductHigh (s : State) (rd : RegNum) (a b : Word) (t : State) : Prop :=
  (t.reg rd).toNat = a.toNat * b.toNat / 65536 ∧ WritesOnly rd s t ∧ SameFlags s t

/-! ## Forms: the word of each instruction of a form, and its effect on the inputs R134 routes to it -/

/-- rr: `op rd, rs` (R83, R91, R134). With a prefix pending it is a misuse instead (R123). -/
def RrForm (i : RegNum → RegNum → Sys2Proof.Instr) (fn : Nat)
    (effect : State → RegNum → Word → Word → State → Prop) : Prop :=
  ∀ (rd rs : RegNum) (s : State), s.cfg.wf = true →
    (encode (i rd rs)).toNat = rd.val * 256 + rs.val * 16 + fn ∧
    (s.pfx = none → Answers (exec (i rd rs) s) (effect s rd (s.reg rd) (s.reg rs))) ∧
    (s.pfx ≠ none → exec (i rd rs) s = .fault (.prefixMisuse s.pc))

/-- ri: `op rd, imm` (R84, R91, R134). -/
def RiForm (i : RegNum → BitVec 4 → Sys2Proof.Instr) (fn : Nat)
    (effect : State → RegNum → Word → Word → State → Prop) : Prop :=
  ∀ (rd : RegNum) (imm : BitVec 4) (s : State), s.cfg.wf = true →
    (encode (i rd imm)).toNat = 0x1000 + rd.val * 256 + fn * 16 + imm.toNat ∧
    Answers (exec (i rd imm) s) (effect s rd (s.immediate imm) (s.reg rd))

/-- rri: `op rd, rs, imm` (R85, R91, R134). -/
def RriForm (i : RegNum → RegNum → BitVec 4 → Sys2Proof.Instr) (major : Nat)
    (effect : State → RegNum → Word → Word → State → Prop) : Prop :=
  ∀ (rd rs : RegNum) (imm : BitVec 4) (s : State), s.cfg.wf = true →
    (encode (i rd rs imm)).toNat = major * 4096 + rd.val * 256 + rs.val * 16 + imm.toNat ∧
    Answers (exec (i rd rs imm) s) (effect s rd (s.reg rs) (s.immediate imm))

/-- What the literal predicates say directly after a compare of `a` with `b` (R184 to R190): `jl` is the signed
order where the difference does not overflow, and `jbe` is never taken. -/
def AfterCompare (a b : Word) (t : State) : Prop :=
  t.taken .jnz = decide (a ≠ b) ∧ t.taken .jz = decide (a = b) ∧
  t.taken .jl = (a - b).getLsbD 15 ∧ t.taken .jg = !((a - b).getLsbD 15) ∧
  t.taken .jb = decide (a.toNat < b.toNat) ∧ t.taken .jbe = false ∧
  t.taken .ja = decide (b.toNat ≤ a.toNat) ∧ t.taken .jae = decide (a = b) ∧
  (-32768 ≤ a.toInt - b.toInt → a.toInt - b.toInt ≤ 32767 → t.taken .jl = decide (a.toInt < b.toInt))

end Sys2Proof.Machine

/-! ## The tables of R29 and R28 -/

namespace Sys2Proof

/-- The column "writes ZF" of R29. -/
def Instr.writesZf : Instr → Bool
  | .andcRr _ _ | .nandcRr _ _ | .orcRr _ _ | .xorcRr _ _ => true
  | .andcRi _ _ | .nandcRi _ _ | .orcRi _ _ | .xorcRi _ _ => true
  | .cmpRr _ _ | .cmpRi _ _ => true
  | _ => false

/-- The columns "writes NF" and "writes BF" of R29, which are equal. -/
def Instr.writesNfBf : Instr → Bool
  | .subic _ _ _ | .incc _ | .decc _ | .negc _ => true
  | .subcRr _ _ | .sbbcRr _ _ | .subcRi _ _ | .sbbcRi _ _ => true
  | .cmpRr _ _ | .cmpRi _ _ => true
  | _ => false

/-- The instructions that read a flag: the eight conditional jumps, and sbb and sbbc (R28). -/
def Instr.readsFlags : Instr → Bool
  | .jnz _ | .jz _ | .jl _ | .jg _ | .jb _ | .jbe _ | .ja _ | .jae _ => true
  | .sbbRr _ _ | .sbbcRr _ _ | .sbbRi _ _ | .sbbcRi _ _ => true
  | _ => false

/-- The jumps and branches. -/
def Instr.transfers : Instr → Bool
  | .jnz _ | .jz _ | .jl _ | .jg _ | .jb _ | .jbe _ | .ja _ | .jae _ => true
  | .brRr _ | .brlRr _ _ | .brRi _ | .brlRi _ _ => true
  | _ => false

/-- The stores. -/
def Instr.stores : Instr → Bool
  | .swD _ _ _ | .swS _ _ _ => true
  | _ => false

/-- The loads. -/
def Instr.loads : Instr → Bool
  | .lwD _ _ _ | .lwS _ _ _ => true
  | _ => false

/-- The formats of R123, before which no prefix may stand. -/
def Instr.takesNoPrefix (i : Instr) : Bool :=
  i.format = .rr || i.format = .bx || i.format = .i12

end Sys2Proof
end

