-- ==== Sys2Proof/Certificates/Slice0/Obligations.lean ====
section
/-! DEFINITION. The statements for the provers, one `def Obligations.<Name> : Prop` each; OBLIGATIONS.json lists
them. A statement marked "derived" rests on an inference or a decision named in its docstring. -/

open Sys2Proof Sys2Proof.Machine

/-! ## The codec -/

/-- Decoding the word of a well-formed instruction gives it back, for every operand (30_encoding.md
section 4: the codec is "injective on instructions"). -/
def Obligations.DecodeOfEncode : Prop :=
  ∀ i : Instr, i.wellFormed = true → decode (encode i) = .ok i

/-- A word that decodes is the word of the instruction it decodes to, and that instruction is no short-hand
(95_test_vectors.md section 2.9: "Decoding then re-encoding every legal word returns the same word"). -/
def Obligations.EncodeOfDecode : Prop :=
  ∀ (w : Word) (i : Instr), decode w = .ok i → encode i = w ∧ i.wellFormed = true

/-- The words that decode to no instruction, by the ranges of their fields (R96's list). -/
def Obligations.IllegalWords : Prop :=
  ∀ w : Word, (∃ r, decode w = .error r) ↔
    (0xC ≤ w.toNat / 4096 ∧ w.toNat / 4096 ≤ 0xE) ∨
    (w.toNat / 4096 = 0x0 ∧ w.toNat % 16 = 0xF) ∨
    (w.toNat / 4096 = 0x1 ∧ w.toNat / 16 % 16 = 0xF) ∨
    (w.toNat / 4096 = 0xA ∧ (0x2 ≤ w.toNat % 16 ∨ (w.toNat % 16 = 0x0 ∧ w.toNat / 256 % 16 ≠ 0))) ∨
    (w.toNat / 4096 = 0xB ∧ (0x2 ≤ w.toNat / 16 % 16 ∨ (w.toNat / 16 % 16 = 0x0 ∧ w.toNat / 256 % 16 ≠ 0)))

/-- The spec's codec as a table of rows (R91 to R95): it decodes and encodes as the codec of the decoding
algorithm does, so a table is enough to hold it (R90; log 24: that CODEC is such a table is the model's form). -/
def Obligations.SpecCodecAsRows : Prop :=
  (Codec.rows specRows).wf = true ∧
  (∀ (w : Word) (i : Instr), (Codec.rows specRows).decode w = .ok i ↔ decode w = .ok i) ∧
  ∀ i : Instr, (Codec.rows specRows).encode i = some (encode i)

/-- Every codec CODEC can be in which rows are apart gives a word one meaning and an instruction one word: decoding
and encoding undo each other (R90: "injective on instructions"; log 24). -/
def Obligations.CodecRoundTrip : Prop :=
  ∀ c : Codec, c.wf = true →
    (∀ (i : Instr) (w : Word), i.wellFormed = true → c.encode i = some w → c.decode w = .ok i) ∧
    ∀ (w : Word) (i : Instr), c.decode w = .ok i → c.encode i = some w ∧ i.wellFormed = true

/-- Each short-hand has the word and the function of its expansion, and its word decodes to the expansion
(30_encoding.md section 5; the two inc rows are the spec's inference "from the dec expansion"). -/
def Obligations.ShorthandsAreTheirExpansions : Prop :=
  ∀ (rd : RegNum) (s : State),
    (decode (encode (.dec rd)) = .ok (.subi rd rd 1#4) ∧ exec (.dec rd) s = exec (.subi rd rd 1#4) s) ∧
    (decode (encode (.decc rd)) = .ok (.subic rd rd 1#4) ∧ exec (.decc rd) s = exec (.subic rd rd 1#4) s) ∧
    (decode (encode (.inc rd)) = .ok (.subi rd rd 0xF#4) ∧ exec (.inc rd) s = exec (.subi rd rd 0xF#4) s) ∧
    (decode (encode (.incc rd)) = .ok (.subic rd rd 0xF#4) ∧ exec (.incc rd) s = exec (.subic rd rd 0xF#4) s) ∧
    (decode (encode (.neg rd)) = .ok (.subRi rd 0#4) ∧ exec (.neg rd) s = exec (.subRi rd 0#4) s) ∧
    (decode (encode (.negc rd)) = .ok (.subcRi rd 0#4) ∧ exec (.negc rd) s = exec (.subcRi rd 0#4) s)

/-- The words of the guide's examples S1 to S15 decode to the instructions they stand for (95_test_vectors.md
section 1). -/
def Obligations.WrittenWordsDecode : Prop :=
  decode 0x0020#16 = .ok (.subRr 0 2) ∧ decode 0x2001#16 = .ok (.subi 0 0 1#4) ∧
  decode 0x1001#16 = .ok (.subRi 0 1#4) ∧ decode 0xF123#16 = .ok (.i12 0x123#12) ∧
  decode 0x4013#16 = .ok (.lwD 0 1 3#4) ∧ decode 0x114C#16 = .ok (.andRi 1 0xC#4) ∧
  decode 0x12E2#16 = .ok (.cmpRi 2 2#4) ∧ decode 0x03FE#16 = .ok (.cmpRr 3 15) ∧
  decode 0x10C4#16 = .ok (.mullRi 0 4#4) ∧ decode 0x942A#16 = .ok (.jbe 0x2A#10) ∧
  decode 0xAF41#16 = .ok (.brlRr 15 4) ∧ decode 0x72E0#16 = .ok (.swS 2 14 0#4)

/-! ## The step -/

/-- A step runs the decoded instruction, whatever codec decodes it (60_exceptions.md section 2, step 5), and puts
nothing around it with DELAY_SLOTS = 0, the spec's value; with other values it puts the delay slots around it
(log 25). -/
def Obligations.StepRunsTheDecodedInstruction : Prop :=
  ∀ (s : State) (i : Instr), s.cfg.haltPc ≠ some s.pc → s.pc.toNat < s.cfg.imemWords →
    s.cfg.codec.decode (Memory.read s.imem s.pc.toNat) = .ok i →
    step s = s.delay i (exec i s) ∧ (s.cfg.delaySlots = 0 → step s = exec i s)

/-- R231 with R227 and R228: the checks of a step in their order, for every codec. "The run is over, no step" is
stated as no next state and no fault. The execution itself is stated for DELAY_SLOTS = 0, the spec's value (R261);
`StepRunsTheDecodedInstruction` says what the model puts around it for other values. -/
def Obligations.StepChecksInOrder : Prop :=
  ∀ s : State,
    (s.cfg.haltPc = some s.pc →
      (s.pfx = none → (∀ t, step s ≠ .next t) ∧ ∀ f, step s ≠ .fault f) ∧
      (s.pfx ≠ none → step s = .fault (.prefixMisuse s.pc))) ∧
    (s.cfg.haltPc ≠ some s.pc →
      (s.cfg.imemWords ≤ s.pc.toNat → step s = .fault (.fetchOutOfRange s.pc)) ∧
      (s.pc.toNat < s.cfg.imemWords →
        (∀ r, s.cfg.codec.decode (Memory.read s.imem s.pc.toNat) = .error r →
          step s = .fault (.illegalInstruction s.pc (Memory.read s.imem s.pc.toNat))) ∧
        (∀ i, s.cfg.codec.decode (Memory.read s.imem s.pc.toNat) = .ok i →
          (s.pfx ≠ none ∧ i.takesNoPrefix = true → step s = .fault (.prefixMisuse s.pc)) ∧
          (s.pfx = none ∨ i.takesNoPrefix = false →
            s.cfg.delaySlots = 0 → step s = exec i s))))

/-- A word placed at pc is the next instruction executed (log 20, the model's reading of R66: the program is
placed before the core starts); under the spec's codec it is the instruction of the table's word. What `s.delay`
puts around the instruction where DELAY_SLOTS is not 0 is the model's choice too (log 25). -/
def Obligations.PlacedWordRunsNext : Prop :=
  ∀ (s : State) (w : Nat) (i : Instr), Memory.wf s.imem → s.cfg.haltPc ≠ some s.pc →
    s.pc.toNat < s.cfg.imemWords → w < 65536 → s.cfg.codec.decode (BitVec.ofNat 16 w) = .ok i →
    step (s.withFetchWord 16 w) = s.delay i (exec i (s.withFetchWord 16 w)) ∧
    (s.cfg.delaySlots = 0 → step (s.withFetchWord 16 w) = exec i (s.withFetchWord 16 w)) ∧
    (s.cfg.codec = .specAssigned → decodeTableWord 16 w = some i)

/-- DELAY_SLOTS (70_reset_and_hazards.md section 2: "a modeller who wants to keep the question open takes a
parameter"; log 25): after a taken jump or branch that meets no other pending transfer, exactly DELAY_SLOTS
instructions run at the next words in turn, if none of them transfers, and then the target does. -/
def Obligations.DelaySlotsThenTarget : Prop :=
  ∀ (run : Nat → State) (i : Instr) (t : State), (run 0).cfg.wf = true → (run 0).pending = [] →
    (∀ k, k ≤ (run 0).cfg.delaySlots → step (run k) = .next (run (k + 1))) →
    (run 0).fetch = .instr i → (run 0).transfersBy i = true → exec i (run 0) = .next t →
    (∀ k, 1 ≤ k → k ≤ (run 0).cfg.delaySlots →
      ∃ j, (run k).fetch = .instr j ∧ (run k).transfersBy j = false) →
    (∀ k, 1 ≤ k → k ≤ (run 0).cfg.delaySlots →
      (run k).pc.toNat = ((run 0).pc.toNat + k) % 2 ^ (run 0).cfg.pcw) ∧
    (run ((run 0).cfg.delaySlots + 1)).pc = t.pc ∧ (run ((run 0).cfg.delaySlots + 1)).pending = []

/-- R230: an rr, bx or i12 instruction with a prefix pending is a misuse, whatever it is. -/
def Obligations.PrefixMisuseFaults : Prop :=
  ∀ (i : Instr) (s : State), i.takesNoPrefix = true → s.pfx ≠ none → exec i s = .fault (.prefixMisuse s.pc)

/-- An ri or rri instruction is never a misuse and leaves no prefix (40_prefix_i12.md: it consumes it). -/
def Obligations.ImmediateFormsConsumeThePrefix : Prop :=
  ∀ (i : Instr) (s : State), i.takesNoPrefix = false →
    (∀ p, exec i s ≠ .fault (.prefixMisuse p)) ∧ ∀ t, exec i s = .next t → t.pfx = none

/-! ## Operands -/

/-- R86: unprefixed the immediate is the signed field, prefixed it is `p ‖ imm4` without extension. -/
def Obligations.ImmediateOperand : Prop :=
  ∀ (s : State) (imm : BitVec 4),
    (s.pfx = none → (s.immediate imm).toInt = imm.toInt) ∧
    (∀ p, s.pfx = some p → (s.immediate imm).toNat = p.toNat * 16 + imm.toNat)

/-- R53, on the pointer of R52: the pointer wraps modulo 2^16 and does not carry into the segment; a segment register of width
0 leaves the pointer alone. -/
def Obligations.AddressFormation : Prop :=
  ∀ (s : State) (rs : RegNum) (imm : BitVec 4),
    ((s.pointer rs imm).toNat : Int) = ((s.reg rs).toNat - (s.immediate imm).toNat : Int) % 65536 ∧
    s.address .d rs imm = s.ds.toNat * 65536 + (s.pointer rs imm).toNat ∧
    s.address .s rs imm = s.ss.toNat * 65536 + (s.pointer rs imm).toNat ∧
    (s.Inv → s.cfg.dsw = 0 → s.address .d rs imm = (s.pointer rs imm).toNat) ∧
    (s.Inv → s.cfg.ssw = 0 → s.address .s rs imm = (s.pointer rs imm).toNat) ∧
    (s.Inv → s.address .d rs imm < 2 ^ (s.cfg.dsw + 16) ∧ s.address .s rs imm < 2 ^ (s.cfg.ssw + 16))

/-! ## Subtraction and compare -/

/-- R140: subi. -/
def Obligations.SubiResult : Prop := RriForm .subi 0x2 (PlainDiff fun _ => false)

/-- R141: subic. -/
def Obligations.SubicResult : Prop := RriForm .subic 0x3 (FlagDiff fun _ => false)

/-- R142, R150: dec and neg, without a prefix. -/
def Obligations.DecrementAndNegate : Prop :=
  ∀ (rd : RegNum) (s : State), s.cfg.wf = true → s.pfx = none →
    encode (.dec rd) = encode (.subi rd rd 1#4) ∧ encode (.neg rd) = encode (.subRi rd 0#4) ∧
    Answers (exec (.dec rd) s) (PlainDiff (fun _ => false) s rd (s.reg rd) 1#16) ∧
    Answers (exec (.neg rd) s) (PlainDiff (fun _ => false) s rd 0#16 (s.reg rd))

/-- R143, R151: decc and negc, without a prefix; BF says that the old value was 0, or was not 0. -/
def Obligations.DecrementAndNegateWithFlags : Prop :=
  ∀ (rd : RegNum) (s : State), s.cfg.wf = true → s.pfx = none →
    encode (.decc rd) = encode (.subic rd rd 1#4) ∧ encode (.negc rd) = encode (.subcRi rd 0#4) ∧
    Answers (exec (.decc rd) s) (fun t =>
      FlagDiff (fun _ => false) s rd (s.reg rd) 1#16 t ∧ t.bf = decide ((s.reg rd).toNat = 0)) ∧
    Answers (exec (.negc rd) s) (fun t =>
      FlagDiff (fun _ => false) s rd 0#16 (s.reg rd) t ∧ t.bf = decide ((s.reg rd).toNat ≠ 0))

/-- inc and incc without a prefix (41_alu.md section 2, the spec's inference "from the dec expansion"): the
old value plus one modulo 2^16, and BF the inverse of a carry. -/
def Obligations.IncrementShorthands : Prop :=
  ∀ (rd : RegNum) (s : State), s.cfg.wf = true → s.pfx = none →
    Answers (exec (.inc rd) s) (fun t =>
      PlainDiff (fun _ => false) s rd (s.reg rd) 0xFFFF#16 t ∧
      (t.reg rd).toNat = ((s.reg rd).toNat + 1) % 65536) ∧
    Answers (exec (.incc rd) s) (fun t =>
      FlagDiff (fun _ => false) s rd (s.reg rd) 0xFFFF#16 t ∧
      (t.reg rd).toNat = ((s.reg rd).toNat + 1) % 65536 ∧ t.bf = decide ((s.reg rd).toNat ≠ 65535))

/-- A short-hand after `i12 p` takes p and the nibble of its word (41_alu.md, the spec's inference at dec and
neg): no decrement, increment or negation any more. -/
def Obligations.PrefixedShorthands : Prop :=
  ∀ (rd : RegNum) (p : BitVec 12) (s : State), s.cfg.wf = true → s.pfx = some p →
    Answers (exec (.dec rd) s) (PlainDiff (fun _ => false) s rd (s.reg rd) (p ++ 1#4)) ∧
    Answers (exec (.inc rd) s) (PlainDiff (fun _ => false) s rd (s.reg rd) (p ++ 0xF#4)) ∧
    Answers (exec (.neg rd) s) (PlainDiff (fun _ => false) s rd (p ++ 0#4) (s.reg rd)) ∧
    Answers (exec (.decc rd) s) (FlagDiff (fun _ => false) s rd (s.reg rd) (p ++ 1#4)) ∧
    Answers (exec (.incc rd) s) (FlagDiff (fun _ => false) s rd (s.reg rd) (p ++ 0xF#4)) ∧
    Answers (exec (.negc rd) s) (FlagDiff (fun _ => false) s rd (p ++ 0#4) (s.reg rd))

/-- R146: sub, rr and ri. -/
def Obligations.SubResult : Prop :=
  RrForm .subRr 0x0 (PlainDiff fun _ => false) ∧ RiForm .subRi 0x0 (PlainDiff fun _ => false)

/-- R147: subc, rr and ri. -/
def Obligations.SubcResult : Prop :=
  RrForm .subcRr 0x1 (FlagDiff fun _ => false) ∧ RiForm .subcRi 0x1 (FlagDiff fun _ => false)

/-- R148: sbb, rr and ri; BF read before the instruction. -/
def Obligations.SbbResult : Prop :=
  RrForm .sbbRr 0x2 (PlainDiff State.bf) ∧ RiForm .sbbRi 0x2 (PlainDiff State.bf)

/-- R149: sbbc, rr and ri. -/
def Obligations.SbbcResult : Prop :=
  RrForm .sbbcRr 0x3 (FlagDiff State.bf) ∧ RiForm .sbbcRi 0x3 (FlagDiff State.bf)

/-- R152: cmp, rr and ri; equal operands give NF = 0 and BF = 0. -/
def Obligations.CmpResult : Prop := RrForm .cmpRr 0xE Compares ∧ RiForm .cmpRi 0xE Compares

/-- A 32-bit subtraction by `subc` on the low words and `sbbc` on the high words (41_alu.md section 3, the
spec's inference at sbbc). -/
def Obligations.TwoWordSubtraction : Prop :=
  ∀ (lo hi lo' hi' : RegNum) (s : State), s.cfg.wf = true → s.pfx = none → lo ≠ hi → lo ≠ hi' →
    Answers (exec (.subcRr lo lo') s) fun t => Answers (exec (.sbbcRr hi hi') t) fun u =>
      let a := (s.reg hi).toNat * 65536 + (s.reg lo).toNat
      let b := (s.reg hi').toNat * 65536 + (s.reg lo').toNat
      (((u.reg hi).toNat * 65536 + (u.reg lo).toNat : Nat) : Int) = ((a : Int) - b) % 4294967296 ∧
      u.bf = decide (a < b)

/-! ## Bitwise -/

/-- R153, R155, R157, R159: and, nand, or, xor, rr and ri. -/
def Obligations.BitwiseResults : Prop :=
  (RrForm .andRr 0x4 (PlainBits and) ∧ RiForm .andRi 0x4 (PlainBits and)) ∧
  (RrForm .nandRr 0x6 (PlainBits fun x y => !(x && y)) ∧ RiForm .nandRi 0x6 (PlainBits fun x y => !(x && y))) ∧
  (RrForm .orRr 0x8 (PlainBits or) ∧ RiForm .orRi 0x8 (PlainBits or)) ∧
  (RrForm .xorRr 0xA (PlainBits xor) ∧ RiForm .xorRi 0xA (PlainBits xor))

/-- R154, R156, R158, R160: andc, nandc, orc, xorc, rr and ri. -/
def Obligations.BitwiseFlagResults : Prop :=
  (RrForm .andcRr 0x5 (FlagBits and) ∧ RiForm .andcRi 0x5 (FlagBits and)) ∧
  (RrForm .nandcRr 0x7 (FlagBits fun x y => !(x && y)) ∧ RiForm .nandcRi 0x7 (FlagBits fun x y => !(x && y))) ∧
  (RrForm .orcRr 0x9 (FlagBits or) ∧ RiForm .orcRi 0x9 (FlagBits or)) ∧
  (RrForm .xorcRr 0xB (FlagBits xor) ∧ RiForm .xorcRi 0xB (FlagBits xor))

/-! ## Multiply -/

/-- R171: mull, rr and ri. -/
def Obligations.MullResult : Prop := RrForm .mullRr 0xC ProductLow ∧ RiForm .mullRi 0xC ProductLow

/-- R172: mulh, rr and ri. -/
def Obligations.MulhResult : Prop := RrForm .mulhRr 0xD ProductHigh ∧ RiForm .mulhRi 0xD ProductHigh

/-- Shifts by multiplication with a prefixed constant (30_encoding.md section 5, idioms, the spec's
inference): left by n with K = 2^n, logically right by n with K = 2^(16-n). -/
def Obligations.ShiftsByMultiplication : Prop :=
  ∀ (rd : RegNum) (n : Nat) (s : State), s.cfg.wf = true → s.pfx = none → n ≤ 15 →
    (Answers (exec (.i12 (BitVec.ofNat 12 (2 ^ n / 16))) s) fun t =>
      Answers (exec (.mullRi rd (BitVec.ofNat 4 (2 ^ n))) t) fun u => u.reg rd = s.reg rd <<< n) ∧
    (1 ≤ n → Answers (exec (.i12 (BitVec.ofNat 12 (2 ^ (16 - n) / 16))) s) fun t =>
      Answers (exec (.mulhRi rd (BitVec.ofNat 4 (2 ^ (16 - n)))) t) fun u => u.reg rd = s.reg rd >>> n)

/-! ## Flow control -/

/-- R181: the common semantics of the eight conditional jumps, with BX_UPPER = zero. -/
def Obligations.ConditionalJumps : Prop :=
  ∀ (c : Cond) (addr : BitVec 10) (s : State), s.cfg.wf = true → s.cfg.bxUpper = .zero →
    (encode (c.jump addr)).toNat = 0x8000 + c.cc.toNat * 1024 + addr.toNat ∧
    (s.pfx = none → Answers (exec (c.jump addr) s) fun t =>
      t.pc.toNat = (if (s.cfg.jcond.test c).eval s.zf s.nf s.bf then addr.toNat
        else (s.pc.toNat + 1) % 2 ^ s.cfg.pcw) ∧
      t.pfx = none ∧ SameButPc s t) ∧
    (s.pfx ≠ none → exec (c.jump addr) s = .fault (.prefixMisuse s.pc))

/-- R182 to R189: the condition code and the predicate of each jump in the literal JCOND table, and what each
says directly after `cmp`. -/
def Obligations.LiteralJumpConditions : Prop :=
  ∀ (addr : BitVec 10) (s : State), s.cfg.wf = true → s.cfg.bxUpper = .zero →
    s.cfg.jcond = JumpTable.literal →
    (let goes := fun (code : Nat) (i : Instr) (taken : Prop) =>
      (encode i).toNat = 0x8000 + code * 1024 + addr.toNat ∧
      (s.pfx = none → Answers (exec i s) fun t => SameButPc s t ∧ t.pfx = none ∧
        (taken → t.pc.toNat = addr.toNat) ∧ (¬taken → t.pc.toNat = (s.pc.toNat + 1) % 2 ^ s.cfg.pcw))
    goes 0 (.jnz addr) (s.zf = false) ∧ goes 1 (.jz addr) (s.zf = true) ∧
    goes 2 (.jl addr) (s.nf = true) ∧ goes 3 (.jg addr) (s.nf = false) ∧
    goes 4 (.jb addr) (s.bf = true) ∧ goes 5 (.jbe addr) (s.bf = true ∧ s.zf = true) ∧
    goes 6 (.ja addr) (s.bf = false) ∧ goes 7 (.jae addr) (s.bf = false ∧ s.zf = true)) ∧
    (∀ rd rs, s.pfx = none → Answers (exec (.cmpRr rd rs) s) (AfterCompare (s.reg rd) (s.reg rs))) ∧
    (∀ rd imm, Answers (exec (.cmpRi rd imm) s) (AfterCompare (s.immediate imm) (s.reg rd)))

/-- The other reading of the two suspect rows, supplied through JCOND (90_conflicts.md C6; log 18). -/
def Obligations.AlternativeJumpConditions : Prop :=
  ∀ (addr : BitVec 10) (s : State), s.cfg.wf = true → s.cfg.bxUpper = .zero →
    s.cfg.jcond = JumpTable.alternative → s.pfx = none →
    let goes := fun (taken : Prop) (t : State) => SameButPc s t ∧ t.pfx = none ∧
      (taken → t.pc.toNat = addr.toNat) ∧ (¬taken → t.pc.toNat = (s.pc.toNat + 1) % 2 ^ s.cfg.pcw)
    Answers (exec (.jbe addr) s) (goes (s.bf = true ∨ s.zf = true)) ∧
    Answers (exec (.jae addr) s) (goes (s.bf = false))

/-- BX_UPPER = keep: a taken jump keeps the pc bits above bit 9 (the "alternative reading" of 43_flow_control.md
section 2; log 17: the upper bits are those of the jump's own address). -/
def Obligations.PageKeepingJumps : Prop :=
  ∀ (c : Cond) (addr : BitVec 10) (s : State), s.cfg.wf = true → s.cfg.bxUpper = .keep → s.pfx = none →
    Answers (exec (c.jump addr) s) fun t =>
      t.pc.toNat = (if (s.cfg.jcond.test c).eval s.zf s.nf s.bf then s.pc.toNat / 1024 * 1024 + addr.toNat
        else (s.pc.toNat + 1) % 2 ^ s.cfg.pcw) ∧
      t.pfx = none ∧ SameButPc s t

/-- R191: br, rr and ri. -/
def Obligations.BranchResult : Prop :=
  ∀ (rs : RegNum) (imm : BitVec 4) (s : State), s.cfg.wf = true →
    (encode (.brRr rs)).toNat = 0xA000 + rs.val * 16 ∧ (encode (.brRi imm)).toNat = 0xB000 + imm.toNat ∧
    (s.pfx = none → Answers (exec (.brRr rs) s) fun t =>
      t.pc.toNat = (s.reg rs).toNat % 2 ^ s.cfg.pcw ∧ t.pfx = none ∧ SameButPc s t) ∧
    (s.pfx ≠ none → exec (.brRr rs) s = .fault (.prefixMisuse s.pc)) ∧
    Answers (exec (.brRi imm) s) fun t =>
      t.pc.toNat = (s.immediate imm).toNat % 2 ^ s.cfg.pcw ∧ t.pfx = none ∧ SameButPc s t

/-- R192: brl, rr and ri; the target is read before the link is written. -/
def Obligations.BranchLinkResult : Prop :=
  ∀ (rd rs : RegNum) (imm : BitVec 4) (s : State), s.cfg.wf = true →
    let links := fun (target : Word) (t : State) =>
      (t.reg rd).toNat = (s.pc.toNat + 1) % 2 ^ s.cfg.pcw ∧ t.pc.toNat = target.toNat % 2 ^ s.cfg.pcw ∧
      t.pfx = none ∧ OtherRegs rd s t ∧ SameFlags s t ∧ SameSystem s t ∧ SameData s t
    (encode (.brlRr rd rs)).toNat = 0xA001 + rd.val * 256 + rs.val * 16 ∧
    (encode (.brlRi rd imm)).toNat = 0xB010 + rd.val * 256 + imm.toNat ∧
    (s.pfx = none → Answers (exec (.brlRr rd rs) s) (links (s.reg rs))) ∧
    (s.pfx ≠ none → exec (.brlRr rd rs) s = .fault (.prefixMisuse s.pc)) ∧
    Answers (exec (.brlRi rd imm) s) (links (s.immediate imm))

/-- A call by `brl`, in its ri form (the usual one, through `i12`) or its rr form, and a return by `br` through
the same register come back to the word after the call, if the routine keeps that register (43_flow_control.md
section 3, calls and returns, the spec's inference). -/
def Obligations.CallThenReturn : Prop :=
  ∀ (link rs : RegNum) (imm : BitVec 4) (s t u : State), s.cfg.wf = true →
    (exec (.brlRi link imm) s = .next t ∨ exec (.brlRr link rs) s = .next t) →
    u.cfg = s.cfg → u.reg link = t.reg link → u.pfx = none →
    Answers (exec (.brRr link) u) fun v => v.pc.toNat = (s.pc.toNat + 1) % 2 ^ s.cfg.pcw

/-! ## Loads and stores -/

/-- R203: lw.d and lw.s from RAM. -/
def Obligations.LoadWordFromRam : Prop :=
  ∀ (rd rs : RegNum) (imm : BitVec 4) (s : State), s.cfg.wf = true →
    (encode (.lwD rd rs imm)).toNat = 0x4000 + rd.val * 256 + rs.val * 16 + imm.toNat ∧
    (encode (.lwS rd rs imm)).toNat = 0x5000 + rd.val * 256 + rs.val * 16 + imm.toNat ∧
    (∀ a, dataAddress s.ds (s.reg rs - s.immediate imm) = a → classify s.cfg.memMap a = .ram →
      Answers (exec (.lwD rd rs imm) s) fun t =>
        t.reg rd = s.ramRead a ∧ WritesOnly rd s t ∧ SameFlags s t) ∧
    (∀ a, dataAddress s.ss (s.reg rs - s.immediate imm) = a → classify s.cfg.memMap a = .ram →
      Answers (exec (.lwS rd rs imm) s) fun t =>
        t.reg rd = s.ramRead a ∧ WritesOnly rd s t ∧ SameFlags s t)

/-- R204: sw.d and sw.s to RAM. -/
def Obligations.StoreWordToRam : Prop :=
  ∀ (rd rs : RegNum) (imm : BitVec 4) (s : State), s.cfg.wf = true → Memory.wf s.dmem →
    let stores := fun (a : Nat) (t : State) =>
      t.ramRead a = s.reg rd ∧ (∀ b, b ≠ a → t.ramRead b = s.ramRead b) ∧
      t.deviceStores = s.deviceStores ∧ t.envReads = s.envReads ∧
      SameRegs s t ∧ SameFlags s t ∧ SameSystem s t ∧ Retired s t
    (encode (.swD rd rs imm)).toNat = 0x6000 + rd.val * 256 + rs.val * 16 + imm.toNat ∧
    (encode (.swS rd rs imm)).toNat = 0x7000 + rd.val * 256 + rs.val * 16 + imm.toNat ∧
    (∀ a, dataAddress s.ds (s.reg rs - s.immediate imm) = a → classify s.cfg.memMap a = .ram →
      Answers (exec (.swD rd rs imm) s) (stores a)) ∧
    (∀ a, dataAddress s.ss (s.reg rs - s.immediate imm) = a → classify s.cfg.memMap a = .ram →
      Answers (exec (.swS rd rs imm) s) (stores a))

/-- R54: a load through either segment register returns the word stored through either, where the addresses
are the same number; this is also the case (a) of program order. -/
def Obligations.LoadReturnsTheWordStored : Prop :=
  ∀ (g g' : Seg) (rd rs rd' rs' : RegNum) (imm imm' : BitVec 4) (s t : State), Memory.wf s.dmem →
    classify s.cfg.memMap (s.address g rs imm) = .ram → exec (storeOf g rd rs imm) s = .next t →
    t.address g' rs' imm' = s.address g rs imm →
    Answers (exec (loadOf g' rd' rs' imm') t) fun u => u.reg rd' = s.reg rd

/-- Device accesses, with the model's own environment (60_exceptions.md section 2; logs 9 and 10): a load
completes and changes no word of RAM, whatever value it is answered with; a store is recorded as an event and
changes no word of RAM. -/
def Obligations.DeviceAccess : Prop :=
  ∀ (g : Seg) (rd rs : RegNum) (imm : BitVec 4) (s : State), s.cfg.wf = true →
    classify s.cfg.memMap (s.address g rs imm) = .device →
    (Answers (exec (loadOf g rd rs imm) s) fun t =>
      OtherRegs rd s t ∧ SameFlags s t ∧ SameSystem s t ∧ (∀ a, t.ramRead a = s.ramRead a) ∧
      t.deviceStores = s.deviceStores ∧ Retired s t) ∧
    (Answers (exec (storeOf g rd rs imm) s) fun t =>
      t.deviceStores = s.deviceStores ++ [⟨s.address g rs imm, s.reg rd⟩] ∧
      (∀ a, t.ramRead a = s.ramRead a) ∧ SameRegs s t ∧ SameFlags s t ∧ SameSystem s t ∧ Retired s t)

/-- An access to an absent address is stuck: no next state and no fault (20_memory.md section 4; the name of the
refusal and what it carries are the model's, log 11). -/
def Obligations.AbsentAccessIsStuck : Prop :=
  ∀ (g : Seg) (rd rs : RegNum) (imm : BitVec 4) (s : State),
    classify s.cfg.memMap (s.address g rs imm) = .absent →
    exec (loadOf g rd rs imm) s = .refused (.stuck s.pc (s.address g rs imm)) ∧
    exec (storeOf g rd rs imm) s = .refused (.stuck s.pc (s.address g rs imm))

/-! ## The prefix -/

/-- R120: i12. -/
def Obligations.PrefixResult : Prop :=
  ∀ (p : BitVec 12) (s : State), s.cfg.wf = true →
    (encode (.i12 p)).toNat = 0xF000 + p.toNat ∧
    (s.pfx = none → Answers (exec (.i12 p) s) fun t =>
      t.pfx = some p ∧ t.pc.toNat = (s.pc.toNat + 1) % 2 ^ s.cfg.pcw ∧ SameButPc s t) ∧
    (s.pfx ≠ none → exec (.i12 p) s = .fault (.prefixMisuse s.pc))

/-- Any 16-bit constant in any register, from any register that holds zero: `i12` then `subi`
(30_encoding.md section 5, idioms, the spec's inference). No register is shut out, r13 among them. -/
def Obligations.LoadConstant : Prop :=
  ∀ (k : Word) (rd zero : RegNum) (s : State), s.cfg.wf = true → s.pfx = none → s.reg zero = 0#16 →
    Answers (exec (.i12 ((-k).extractLsb' 4 12)) s) fun t =>
      Answers (exec (.subi rd zero ((-k).extractLsb' 0 4)) t) fun u =>
        u.reg rd = k ∧ OtherRegs rd s u ∧ SameFlags s u ∧ SameData s u ∧ u.pfx = none ∧
        u.pc.toNat = (s.pc.toNat + 2) % 2 ^ s.cfg.pcw

/-- R31: `i12` sets the latch, an immediate operand reads it, every instruction but `i12` leaves it empty, and
it is empty at reset. -/
def Obligations.PrefixLatchLifetime : Prop :=
  (∀ (i : Instr) (s t : State), exec i s = .next t →
    (∀ p, i = .i12 p → t.pfx = some p) ∧ ((∀ p, i ≠ .i12 p) → t.pfx = none)) ∧
  (∀ (s : State) (p : BitVec 12) (imm : BitVec 4), s.pfx = some p → (s.immediate imm).extractLsb' 4 12 = p) ∧
  State.reset.pfx = none ∧ ∀ l, (State.launch l).pfx = none

/-! ## The whole machine -/

/-- R25: every instruction that is no taken jump or branch goes to the next word; a taken jump goes to its
field (R181) and a branch to its register or immediate (R191, R192). -/
def Obligations.NextPc : Prop :=
  ∀ (i : Instr) (s t : State), s.cfg.wf = true → exec i s = .next t →
    ((i.transfers = false ∨ ∃ (c : Cond) (addr : BitVec 10), i = c.jump addr ∧ s.taken c = false) →
      t.pc.toNat = (s.pc.toNat + 1) % 2 ^ s.cfg.pcw) ∧
    (∀ (c : Cond) (addr : BitVec 10), i = c.jump addr → s.taken c = true → s.cfg.bxUpper = .zero →
      t.pc.toNat = addr.toNat) ∧
    (∀ rd rs, i = .brRr rs ∨ i = .brlRr rd rs → t.pc.toNat = (s.reg rs).toNat % 2 ^ s.cfg.pcw) ∧
    (∀ rd imm, i = .brRi imm ∨ i = .brlRi rd imm → t.pc.toNat = (s.immediate imm).toNat % 2 ^ s.cfg.pcw)

/-- A flag an instruction does not write keeps its value (10_state.md section 3, the table of R29). -/
def Obligations.FlagWriters : Prop :=
  ∀ (i : Instr) (s t : State), exec i s = .next t →
    (i.writesZf = false → t.zf = s.zf) ∧ (i.writesNfBf = false → t.nf = s.nf ∧ t.bf = s.bf)

/-- The flags are read by the conditional jumps and, BF alone, by sbb and sbbc (10_state.md section 3): in two
states that differ in their flags only, every other instruction answers alike, and sbb and sbbc do where BF is
the same. At a device address the two loads receive the same word by log 9: that clause is the model's choice,
where 60_exceptions.md section 2 gives any value. -/
def Obligations.FlagReaders : Prop :=
  ∀ (i : Instr) (s t : State) (z n b : Bool), exec i s = .next t →
    (i.readsFlags = false ∨ ((∀ (c : Cond) (addr : BitVec 10), i ≠ c.jump addr) ∧ b = s.bf)) →
    Answers (exec i { s with zf := z, nf := n, bf := b }) fun u =>
      u.x = t.x ∧ u.pc = t.pc ∧ u.pfx = t.pfx ∧ u.pending = t.pending ∧ u.dmem = t.dmem ∧ u.imem = t.imem ∧
      u.ds = t.ds ∧ u.ss = t.ss ∧ u.deviceStores = t.deviceStores ∧ u.envReads = t.envReads ∧ u.cfg = t.cfg ∧
      (i.writesZf = true → u.zf = t.zf) ∧ (i.writesNfBf = true → u.nf = t.nf ∧ u.bf = t.bf)

/-- R34, R66: DS and SS start as DS_INIT and SS_INIT, and no step changes DS, SS or the program text; nor the
parameters (log 7). -/
def Obligations.ConstantsOfARun : Prop :=
  (∀ l : Launch, (State.launch l).ds = l.dsInit ∧ (State.launch l).ss = l.ssInit ∧
    (State.launch l).imem = l.program) ∧
  ∀ s t : State, step s = .next t → t.ds = s.ds ∧ t.ss = s.ss ∧ t.imem = s.imem ∧ t.cfg = s.cfg

/-- Data memory is reached only by lw and sw, and only sw changes it (10_state.md section 6). -/
def Obligations.OnlyStoresChangeData : Prop :=
  ∀ (i : Instr) (s t : State), exec i s = .next t →
    (i.stores = false → t.dmem = s.dmem ∧ t.deviceStores = s.deviceStores) ∧
    (i.loads = false → t.envReads = s.envReads)

/-- Every step keeps the invariant of the machine. -/
def Obligations.StepKeepsTheInvariant : Prop := ∀ s t : State, s.Inv → step s = .next t → t.Inv

/-- The invariant holds at reset; the values the spec leaves free there are the model's (logs 1 to 6). -/
def Obligations.ResetMeetsTheInvariant : Prop := State.reset.Inv

/-- The invariant holds at every launch the host may make (60_exceptions.md, launch). -/
def Obligations.LaunchMeetsTheInvariant : Prop := ∀ l : Launch, l.Inv → (State.launch l).Inv

/-- Another bus master's write between two steps keeps the invariant, and a load then returns its word
(20_memory.md section 4; log 13). -/
def Obligations.ExternalWriteKeepsTheInvariant : Prop :=
  ∀ (s : State) (a : Nat) (v : Word), s.Inv → a < 2 ^ (max s.cfg.dsw s.cfg.ssw + 16) →
    (s.externalWrite a v).Inv ∧ (classify s.cfg.memMap a = .ram → (s.externalWrite a v).ramRead a = v)

/-- R27, R250, R251: what a launch leaves, for every choice of the inputs the spec leaves free. -/
def Obligations.LaunchState : Prop :=
  (∀ l : Launch, (State.launch l).pc = 0#16 ∧ (State.launch l).pfx = none ∧ (State.launch l).pending = [] ∧
    (∀ r, (State.launch l).reg r = l.regs[r]) ∧ (State.launch l).zf = l.zf ∧ (State.launch l).nf = l.nf ∧
    (State.launch l).bf = l.bf ∧ (State.launch l).ds = l.dsInit ∧ (State.launch l).ss = l.ssInit ∧
    (∀ a, (State.launch l).ramRead a = Memory.read l.ram a) ∧
    (∀ a, Memory.read (State.launch l).imem a = Memory.read l.program a)) ∧
  ∃ l, State.reset = State.launch l

/-- Known values from unknown ones (70_reset_and_hazards.md section 1, the spec's inference): `xor rd, rd`,
`sub rd, rd` and `and rd, 0` leave zero, and `cmp rd, rd` leaves ZF = 1, NF = 0, BF = 0. -/
def Obligations.KnownValues : Prop :=
  ∀ (rd : RegNum) (s : State), s.pfx = none →
    (Answers (exec (.xorRr rd rd) s) fun t => t.reg rd = 0#16) ∧
    (Answers (exec (.subRr rd rd) s) fun t => t.reg rd = 0#16) ∧
    (Answers (exec (.andRi rd 0#4) s) fun t => t.reg rd = 0#16) ∧
    (Answers (exec (.cmpRr rd rd) s) fun t => t.zf = true ∧ t.nf = false ∧ t.bf = false)

/-! ## The assembler -/

/-- R105: the immediate of every ri and rri statement assembles exactly in its range, to its low four bits; so
does the operand of `i12`, modulo 4096; the wider range stands exactly after an `i12` line; a 16-bit constant is
an `i12` line and a nibble; and no prefix is inserted. -/
def Obligations.AssembledImmediates : Prop :=
  (∀ (pre : Bool) (v : Int),
    let takes := fun (line : Stmt) (instr : BitVec 4 → Instr) =>
      (-8 ≤ v ∧ v ≤ (if pre then 15 else 7) →
        ∃ b : BitVec 4, (b.toNat : Int) = v % 16 ∧ assemble pre line = .ok (instr b)) ∧
      (v < -8 ∨ (if pre then 15 else 7) < v → ∃ e, assemble pre line = .error e)
    (∀ rd rs, takes (.subi rd rs v) (.subi rd rs)) ∧ (∀ rd rs, takes (.subic rd rs v) (.subic rd rs)) ∧
    (∀ op rd, takes (.alu op rd (.num v)) (op.ri rd)) ∧
    (∀ x rd m, m.offset = v → takes (.lw x rd m) (loadOf x.seg rd m.base)) ∧
    (∀ x rd m, m.offset = v → takes (.sw x rd m) (storeOf x.seg rd m.base)) ∧
    takes (.br (.num v)) .brRi ∧ (∀ rd, takes (.brl rd (.num v)) (.brlRi rd))) ∧
  (∀ (pre : Bool) (v : Int),
    (-2048 ≤ v ∧ v ≤ 4095 → ∃ b : BitVec 12, (b.toNat : Int) = v % 4096 ∧ assemble pre (.i12 v) = .ok (.i12 b)) ∧
    (v < -2048 ∨ 4095 < v → ∃ e, assemble pre (.i12 v) = .error e)) ∧
  (∀ (c : Codec) (lines : List Stmt) (ws : List Word), assembleProgram c false lines = .ok ws ↔
    ws.length = lines.length ∧
    ∀ (k : Nat) (line : Stmt) (pre : Bool), lines[k]? = some line →
      (pre = true ↔ 0 < k ∧ ∃ v, lines[k - 1]? = some (.i12 v)) →
      ∃ i, assemble pre line = .ok i ∧ c.encode i = ws[k]?) ∧
  ∀ (k : Word) (rd rs : RegNum), ∃ p b, assemble false (.i12 (k.toNat / 16 : Nat)) = .ok (.i12 p) ∧
    assemble true (.subi rd rs (k.toNat % 16 : Nat)) = .ok (.subi rd rs b) ∧
    ∀ s : State, s.pfx = some p → s.immediate b = k

/-- R106, R107: the spellings of a memory operand and of a segment. -/
def Obligations.MemorySpellings : Prop :=
  ∀ (prefixed : Bool) (x : Suffix) (rd rs : RegNum) (k : Int),
    assemble prefixed (.lw x rd (.minus rs k)) = assemble prefixed (.lw x rd (.plain rs k)) ∧
    assemble prefixed (.lw x rd (.plus rs k)) = assemble prefixed (.lw x rd (.plain rs (-k))) ∧
    assemble prefixed (.lw x rd (.bare rs)) = assemble prefixed (.lw x rd (.plain rs 0)) ∧
    assemble prefixed (.sw x rd (.minus rs k)) = assemble prefixed (.sw x rd (.plain rs k)) ∧
    assemble prefixed (.sw x rd (.plus rs k)) = assemble prefixed (.sw x rd (.plain rs (-k))) ∧
    assemble prefixed (.sw x rd (.bare rs)) = assemble prefixed (.sw x rd (.plain rs 0)) ∧
    assemble prefixed (.lw .absent rd (.plain rs k)) = (asmImm prefixed k).map (Instr.lwD rd rs) ∧
    assemble prefixed (.lw .d rd (.plain rs k)) = (asmImm prefixed k).map (Instr.lwD rd rs) ∧
    assemble prefixed (.lw .s rd (.plain rs k)) = (asmImm prefixed k).map (Instr.lwS rd rs) ∧
    assemble prefixed (.lw .sf rd (.plain rs k)) = (asmImm prefixed k).map (Instr.lwS rd rs) ∧
    assemble prefixed (.sw .absent rd (.plain rs k)) = (asmImm prefixed k).map (Instr.swD rd rs) ∧
    assemble prefixed (.sw .d rd (.plain rs k)) = (asmImm prefixed k).map (Instr.swD rd rs) ∧
    assemble prefixed (.sw .s rd (.plain rs k)) = (asmImm prefixed k).map (Instr.swS rd rs) ∧
    assemble prefixed (.sw .sf rd (.plain rs k)) = (asmImm prefixed k).map (Instr.swS rd rs)
end

