-- ==== Sys2Proof/Laws/Codec.lean ====
section
/-! SUPPORT. The fields of an assembled word (R91), and the codes of R93 and R94 read back. -/

namespace Sys2Proof

@[simp] theorem regOfField_fieldOfReg (r : RegNum) : regOfField (fieldOfReg r) = r := rfl

@[simp] theorem fieldOfReg_regOfField (f : BitVec 4) : fieldOfReg (regOfField f) = f := rfl

/-- A word of four 4-bit fields. -/
def wordOf (m a b c : BitVec 4) : Word := m ++ a ++ b ++ c

theorem wordOf_toNat (m a b c : BitVec 4) :
    (wordOf m a b c).toNat = m.toNat * 4096 + a.toNat * 256 + b.toNat * 16 + c.toNat := by
  have ha := a.isLt
  have hb := b.isLt
  have hc := c.isLt
  simp only [wordOf, BitVec.toNat_append]
  rw [← Nat.shiftLeft_add_eq_or_of_lt ha, ← Nat.shiftLeft_add_eq_or_of_lt hb, ← Nat.shiftLeft_add_eq_or_of_lt hc]
  simp only [Nat.shiftLeft_eq]
  omega

@[simp] theorem fieldMajor_wordOf (m a b c : BitVec 4) : fieldMajor (wordOf m a b c) = m := by
  apply BitVec.eq_of_toNat_eq
  have hm := m.isLt
  have ha := a.isLt
  have hb := b.isLt
  have hc := c.isLt
  simp only [fieldMajor, BitVec.extractLsb'_toNat, wordOf_toNat, Nat.shiftRight_eq_div_pow]
  omega

@[simp] theorem fieldA_wordOf (m a b c : BitVec 4) : fieldA (wordOf m a b c) = a := by
  apply BitVec.eq_of_toNat_eq
  have ha := a.isLt
  have hb := b.isLt
  have hc := c.isLt
  simp only [fieldA, BitVec.extractLsb'_toNat, wordOf_toNat, Nat.shiftRight_eq_div_pow]
  omega

@[simp] theorem fieldB_wordOf (m a b c : BitVec 4) : fieldB (wordOf m a b c) = b := by
  apply BitVec.eq_of_toNat_eq
  have hb := b.isLt
  have hc := c.isLt
  simp only [fieldB, BitVec.extractLsb'_toNat, wordOf_toNat, Nat.shiftRight_eq_div_pow]
  omega

@[simp] theorem fieldC_wordOf (m a b c : BitVec 4) : fieldC (wordOf m a b c) = c := by
  apply BitVec.eq_of_toNat_eq
  have hc := c.isLt
  simp only [fieldC, BitVec.extractLsb'_toNat, wordOf_toNat, Nat.shiftRight_eq_div_pow]
  omega

/-- Every word is its four fields. -/
theorem wordOf_fields (w : Word) : wordOf (fieldMajor w) (fieldA w) (fieldB w) (fieldC w) = w := by
  apply BitVec.eq_of_toNat_eq
  have hw := w.isLt
  simp only [wordOf_toNat, fieldMajor, fieldA, fieldB, fieldC, BitVec.extractLsb'_toNat, Nat.shiftRight_eq_div_pow]
  omega

theorem wordRr_eq (m : BitVec 4) (rd rs : RegNum) (fn : BitVec 4) :
    wordRr m rd rs fn = wordOf m (fieldOfReg rd) (fieldOfReg rs) fn := rfl

theorem wordRi_eq (m : BitVec 4) (rd : RegNum) (fn imm : BitVec 4) :
    wordRi m rd fn imm = wordOf m (fieldOfReg rd) fn imm := rfl

theorem wordRri_eq (m : BitVec 4) (rd rs : RegNum) (imm : BitVec 4) :
    wordRri m rd rs imm = wordOf m (fieldOfReg rd) (fieldOfReg rs) imm := rfl

theorem wordRr_toNat (m : BitVec 4) (rd rs : RegNum) (fn : BitVec 4) :
    (wordRr m rd rs fn).toNat = m.toNat * 4096 + rd.val * 256 + rs.val * 16 + fn.toNat := wordOf_toNat _ _ _ _

theorem wordRi_toNat (m : BitVec 4) (rd : RegNum) (fn imm : BitVec 4) :
    (wordRi m rd fn imm).toNat = m.toNat * 4096 + rd.val * 256 + fn.toNat * 16 + imm.toNat := wordOf_toNat _ _ _ _

theorem wordRri_toNat (m : BitVec 4) (rd rs : RegNum) (imm : BitVec 4) :
    (wordRri m rd rs imm).toNat = m.toNat * 4096 + rd.val * 256 + rs.val * 16 + imm.toNat := wordOf_toNat _ _ _ _

/-! ## bx and i12 words -/

theorem wordBx_toNat (c : Cond) (addr : BitVec 10) :
    (wordBx c addr).toNat = 0x8000 + c.cc.toNat * 1024 + addr.toNat := by
  have ha := addr.isLt
  have hc := c.cc.isLt
  simp only [wordBx, BitVec.toNat_append]
  rw [← Nat.shiftLeft_add_eq_or_of_lt hc, ← Nat.shiftLeft_add_eq_or_of_lt ha]
  simp only [Nat.shiftLeft_eq, BitVec.toNat_ofNat]
  omega

theorem fieldMajor_wordBx (c : Cond) (addr : BitVec 10) :
    (fieldMajor (wordBx c addr)).toNat = 8 + c.cc.toNat / 4 := by
  have ha := addr.isLt
  have hc := c.cc.isLt
  simp only [fieldMajor, BitVec.extractLsb'_toNat, wordBx_toNat, Nat.shiftRight_eq_div_pow]
  omega

@[simp] theorem fieldCc_wordBx (c : Cond) (addr : BitVec 10) : fieldCc (wordBx c addr) = c.cc := by
  apply BitVec.eq_of_toNat_eq
  have ha := addr.isLt
  have hc := c.cc.isLt
  simp only [fieldCc, BitVec.extractLsb'_toNat, wordBx_toNat, Nat.shiftRight_eq_div_pow]
  omega

@[simp] theorem fieldAddr10_wordBx (c : Cond) (addr : BitVec 10) : fieldAddr10 (wordBx c addr) = addr := by
  apply BitVec.eq_of_toNat_eq
  have ha := addr.isLt
  simp only [fieldAddr10, BitVec.extractLsb'_toNat, wordBx_toNat, Nat.shiftRight_eq_div_pow]
  omega

theorem wordI12_toNat (p : BitVec 12) : (encode (.i12 p)).toNat = 0xF000 + p.toNat := by
  have hp := p.isLt
  show (0xF#4 ++ p).toNat = _
  rw [BitVec.toNat_append, ← Nat.shiftLeft_add_eq_or_of_lt hp]
  simp [Nat.shiftLeft_eq]

/-! ## Codes -/

@[simp] theorem AluOp.ofFn_fn (op : AluOp) : AluOp.ofFn op.fn = some op := by cases op <;> rfl

theorem AluOp.fn_of_ofFn {f : BitVec 4} {op : AluOp} (h : AluOp.ofFn f = some op) : op.fn = f := by
  revert f op
  decide

@[simp] theorem Cond.ofCc_cc (c : Cond) : Cond.ofCc c.cc = c := by cases c <;> rfl

@[simp] theorem Cond.cc_ofCc (f : BitVec 3) : (Cond.ofCc f).cc = f := by
  revert f
  decide

end Sys2Proof
end

