-- ==== Sys2Proof/Laws/State.lean ====
section
/-! SUPPORT. One lemma for each field and each update of the state, so that no proof unfolds a record update;
then what an update does to the views of the state: a register, the next pc, a word of RAM. -/

namespace Sys2Proof.Machine

/-! ## setReg -/

@[simp] theorem State.setReg_cfg (s : State) (r : RegNum) (v : Word) : (s.setReg r v).cfg = s.cfg := rfl
@[simp] theorem State.setReg_x (s : State) (r : RegNum) (v : Word) : (s.setReg r v).x = s.x.set r v := rfl
@[simp] theorem State.setReg_pc (s : State) (r : RegNum) (v : Word) : (s.setReg r v).pc = s.pc := rfl
@[simp] theorem State.setReg_zf (s : State) (r : RegNum) (v : Word) : (s.setReg r v).zf = s.zf := rfl
@[simp] theorem State.setReg_nf (s : State) (r : RegNum) (v : Word) : (s.setReg r v).nf = s.nf := rfl
@[simp] theorem State.setReg_bf (s : State) (r : RegNum) (v : Word) : (s.setReg r v).bf = s.bf := rfl
@[simp] theorem State.setReg_pfx (s : State) (r : RegNum) (v : Word) : (s.setReg r v).pfx = s.pfx := rfl
@[simp] theorem State.setReg_pending (s : State) (r : RegNum) (v : Word) : (s.setReg r v).pending = s.pending := rfl
@[simp] theorem State.setReg_ds (s : State) (r : RegNum) (v : Word) : (s.setReg r v).ds = s.ds := rfl
@[simp] theorem State.setReg_ss (s : State) (r : RegNum) (v : Word) : (s.setReg r v).ss = s.ss := rfl
@[simp] theorem State.setReg_imem (s : State) (r : RegNum) (v : Word) : (s.setReg r v).imem = s.imem := rfl
@[simp] theorem State.setReg_dmem (s : State) (r : RegNum) (v : Word) : (s.setReg r v).dmem = s.dmem := rfl
@[simp] theorem State.setReg_deviceStores (s : State) (r : RegNum) (v : Word) : (s.setReg r v).deviceStores = s.deviceStores := rfl
@[simp] theorem State.setReg_envReads (s : State) (r : RegNum) (v : Word) : (s.setReg r v).envReads = s.envReads := rfl

/-! ## retire -/

@[simp] theorem State.retire_cfg (s : State) : s.retire.cfg = s.cfg := rfl
@[simp] theorem State.retire_x (s : State) : s.retire.x = s.x := rfl
@[simp] theorem State.retire_pc (s : State) : s.retire.pc = s.pcNext := rfl
@[simp] theorem State.retire_zf (s : State) : s.retire.zf = s.zf := rfl
@[simp] theorem State.retire_nf (s : State) : s.retire.nf = s.nf := rfl
@[simp] theorem State.retire_bf (s : State) : s.retire.bf = s.bf := rfl
@[simp] theorem State.retire_pfx (s : State) : s.retire.pfx = none := rfl
@[simp] theorem State.retire_pending (s : State) : s.retire.pending = s.pending := rfl
@[simp] theorem State.retire_ds (s : State) : s.retire.ds = s.ds := rfl
@[simp] theorem State.retire_ss (s : State) : s.retire.ss = s.ss := rfl
@[simp] theorem State.retire_imem (s : State) : s.retire.imem = s.imem := rfl
@[simp] theorem State.retire_dmem (s : State) : s.retire.dmem = s.dmem := rfl
@[simp] theorem State.retire_deviceStores (s : State) : s.retire.deviceStores = s.deviceStores := rfl
@[simp] theorem State.retire_envReads (s : State) : s.retire.envReads = s.envReads := rfl

/-! ## goTo -/

@[simp] theorem State.goTo_cfg (s : State) (t : Word) : (s.goTo t).cfg = s.cfg := rfl
@[simp] theorem State.goTo_x (s : State) (t : Word) : (s.goTo t).x = s.x := rfl
@[simp] theorem State.goTo_pc (s : State) (t : Word) : (s.goTo t).pc = t := rfl
@[simp] theorem State.goTo_zf (s : State) (t : Word) : (s.goTo t).zf = s.zf := rfl
@[simp] theorem State.goTo_nf (s : State) (t : Word) : (s.goTo t).nf = s.nf := rfl
@[simp] theorem State.goTo_bf (s : State) (t : Word) : (s.goTo t).bf = s.bf := rfl
@[simp] theorem State.goTo_pfx (s : State) (t : Word) : (s.goTo t).pfx = none := rfl
@[simp] theorem State.goTo_pending (s : State) (t : Word) : (s.goTo t).pending = s.pending := rfl
@[simp] theorem State.goTo_ds (s : State) (t : Word) : (s.goTo t).ds = s.ds := rfl
@[simp] theorem State.goTo_ss (s : State) (t : Word) : (s.goTo t).ss = s.ss := rfl
@[simp] theorem State.goTo_imem (s : State) (t : Word) : (s.goTo t).imem = s.imem := rfl
@[simp] theorem State.goTo_dmem (s : State) (t : Word) : (s.goTo t).dmem = s.dmem := rfl
@[simp] theorem State.goTo_deviceStores (s : State) (t : Word) : (s.goTo t).deviceStores = s.deviceStores := rfl
@[simp] theorem State.goTo_envReads (s : State) (t : Word) : (s.goTo t).envReads = s.envReads := rfl

/-! ## latchPrefix -/

@[simp] theorem State.latchPrefix_cfg (s : State) (p : BitVec 12) : (s.latchPrefix p).cfg = s.cfg := rfl
@[simp] theorem State.latchPrefix_x (s : State) (p : BitVec 12) : (s.latchPrefix p).x = s.x := rfl
@[simp] theorem State.latchPrefix_pc (s : State) (p : BitVec 12) : (s.latchPrefix p).pc = s.pcNext := rfl
@[simp] theorem State.latchPrefix_zf (s : State) (p : BitVec 12) : (s.latchPrefix p).zf = s.zf := rfl
@[simp] theorem State.latchPrefix_nf (s : State) (p : BitVec 12) : (s.latchPrefix p).nf = s.nf := rfl
@[simp] theorem State.latchPrefix_bf (s : State) (p : BitVec 12) : (s.latchPrefix p).bf = s.bf := rfl
@[simp] theorem State.latchPrefix_pfx (s : State) (p : BitVec 12) : (s.latchPrefix p).pfx = some p := rfl
@[simp] theorem State.latchPrefix_pending (s : State) (p : BitVec 12) : (s.latchPrefix p).pending = s.pending := rfl
@[simp] theorem State.latchPrefix_ds (s : State) (p : BitVec 12) : (s.latchPrefix p).ds = s.ds := rfl
@[simp] theorem State.latchPrefix_ss (s : State) (p : BitVec 12) : (s.latchPrefix p).ss = s.ss := rfl
@[simp] theorem State.latchPrefix_imem (s : State) (p : BitVec 12) : (s.latchPrefix p).imem = s.imem := rfl
@[simp] theorem State.latchPrefix_dmem (s : State) (p : BitVec 12) : (s.latchPrefix p).dmem = s.dmem := rfl
@[simp] theorem State.latchPrefix_deviceStores (s : State) (p : BitVec 12) : (s.latchPrefix p).deviceStores = s.deviceStores := rfl
@[simp] theorem State.latchPrefix_envReads (s : State) (p : BitVec 12) : (s.latchPrefix p).envReads = s.envReads := rfl

/-! ## ramWrite -/

@[simp] theorem State.ramWrite_cfg (s : State) (a : Nat) (v : Word) : (s.ramWrite a v).cfg = s.cfg := rfl
@[simp] theorem State.ramWrite_x (s : State) (a : Nat) (v : Word) : (s.ramWrite a v).x = s.x := rfl
@[simp] theorem State.ramWrite_pc (s : State) (a : Nat) (v : Word) : (s.ramWrite a v).pc = s.pc := rfl
@[simp] theorem State.ramWrite_zf (s : State) (a : Nat) (v : Word) : (s.ramWrite a v).zf = s.zf := rfl
@[simp] theorem State.ramWrite_nf (s : State) (a : Nat) (v : Word) : (s.ramWrite a v).nf = s.nf := rfl
@[simp] theorem State.ramWrite_bf (s : State) (a : Nat) (v : Word) : (s.ramWrite a v).bf = s.bf := rfl
@[simp] theorem State.ramWrite_pfx (s : State) (a : Nat) (v : Word) : (s.ramWrite a v).pfx = s.pfx := rfl
@[simp] theorem State.ramWrite_pending (s : State) (a : Nat) (v : Word) : (s.ramWrite a v).pending = s.pending := rfl
@[simp] theorem State.ramWrite_ds (s : State) (a : Nat) (v : Word) : (s.ramWrite a v).ds = s.ds := rfl
@[simp] theorem State.ramWrite_ss (s : State) (a : Nat) (v : Word) : (s.ramWrite a v).ss = s.ss := rfl
@[simp] theorem State.ramWrite_imem (s : State) (a : Nat) (v : Word) : (s.ramWrite a v).imem = s.imem := rfl
@[simp] theorem State.ramWrite_dmem (s : State) (a : Nat) (v : Word) : (s.ramWrite a v).dmem = Memory.write s.dmem a v := rfl
@[simp] theorem State.ramWrite_deviceStores (s : State) (a : Nat) (v : Word) : (s.ramWrite a v).deviceStores = s.deviceStores := rfl
@[simp] theorem State.ramWrite_envReads (s : State) (a : Nat) (v : Word) : (s.ramWrite a v).envReads = s.envReads := rfl

/-! ## placeWord -/

@[simp] theorem State.placeWord_cfg (s : State) (w : Word) : (s.placeWord w).cfg = s.cfg := rfl
@[simp] theorem State.placeWord_x (s : State) (w : Word) : (s.placeWord w).x = s.x := rfl
@[simp] theorem State.placeWord_pc (s : State) (w : Word) : (s.placeWord w).pc = s.pc := rfl
@[simp] theorem State.placeWord_zf (s : State) (w : Word) : (s.placeWord w).zf = s.zf := rfl
@[simp] theorem State.placeWord_nf (s : State) (w : Word) : (s.placeWord w).nf = s.nf := rfl
@[simp] theorem State.placeWord_bf (s : State) (w : Word) : (s.placeWord w).bf = s.bf := rfl
@[simp] theorem State.placeWord_pfx (s : State) (w : Word) : (s.placeWord w).pfx = s.pfx := rfl
@[simp] theorem State.placeWord_pending (s : State) (w : Word) : (s.placeWord w).pending = s.pending := rfl
@[simp] theorem State.placeWord_ds (s : State) (w : Word) : (s.placeWord w).ds = s.ds := rfl
@[simp] theorem State.placeWord_ss (s : State) (w : Word) : (s.placeWord w).ss = s.ss := rfl
@[simp] theorem State.placeWord_imem (s : State) (w : Word) : (s.placeWord w).imem = Memory.write s.imem s.pc.toNat w := rfl
@[simp] theorem State.placeWord_dmem (s : State) (w : Word) : (s.placeWord w).dmem = s.dmem := rfl
@[simp] theorem State.placeWord_deviceStores (s : State) (w : Word) : (s.placeWord w).deviceStores = s.deviceStores := rfl
@[simp] theorem State.placeWord_envReads (s : State) (w : Word) : (s.placeWord w).envReads = s.envReads := rfl

/-! ## setSubFlags -/

@[simp] theorem State.setSubFlags_cfg (s : State) (a b : Word) (bin : Bool) : (s.setSubFlags a b bin).cfg = s.cfg := rfl
@[simp] theorem State.setSubFlags_x (s : State) (a b : Word) (bin : Bool) : (s.setSubFlags a b bin).x = s.x := rfl
@[simp] theorem State.setSubFlags_pc (s : State) (a b : Word) (bin : Bool) : (s.setSubFlags a b bin).pc = s.pc := rfl
@[simp] theorem State.setSubFlags_zf (s : State) (a b : Word) (bin : Bool) : (s.setSubFlags a b bin).zf = s.zf := rfl
@[simp] theorem State.setSubFlags_nf (s : State) (a b : Word) (bin : Bool) : (s.setSubFlags a b bin).nf = (diff a b bin).msb := rfl
@[simp] theorem State.setSubFlags_bf (s : State) (a b : Word) (bin : Bool) : (s.setSubFlags a b bin).bf = borrow a b bin := rfl
@[simp] theorem State.setSubFlags_pfx (s : State) (a b : Word) (bin : Bool) : (s.setSubFlags a b bin).pfx = s.pfx := rfl
@[simp] theorem State.setSubFlags_pending (s : State) (a b : Word) (bin : Bool) : (s.setSubFlags a b bin).pending = s.pending := rfl
@[simp] theorem State.setSubFlags_ds (s : State) (a b : Word) (bin : Bool) : (s.setSubFlags a b bin).ds = s.ds := rfl
@[simp] theorem State.setSubFlags_ss (s : State) (a b : Word) (bin : Bool) : (s.setSubFlags a b bin).ss = s.ss := rfl
@[simp] theorem State.setSubFlags_imem (s : State) (a b : Word) (bin : Bool) : (s.setSubFlags a b bin).imem = s.imem := rfl
@[simp] theorem State.setSubFlags_dmem (s : State) (a b : Word) (bin : Bool) : (s.setSubFlags a b bin).dmem = s.dmem := rfl
@[simp] theorem State.setSubFlags_deviceStores (s : State) (a b : Word) (bin : Bool) : (s.setSubFlags a b bin).deviceStores = s.deviceStores := rfl
@[simp] theorem State.setSubFlags_envReads (s : State) (a b : Word) (bin : Bool) : (s.setSubFlags a b bin).envReads = s.envReads := rfl

/-! ## setZeroFlag -/

@[simp] theorem State.setZeroFlag_cfg (s : State) (r : Word) : (s.setZeroFlag r).cfg = s.cfg := rfl
@[simp] theorem State.setZeroFlag_x (s : State) (r : Word) : (s.setZeroFlag r).x = s.x := rfl
@[simp] theorem State.setZeroFlag_pc (s : State) (r : Word) : (s.setZeroFlag r).pc = s.pc := rfl
@[simp] theorem State.setZeroFlag_zf (s : State) (r : Word) : (s.setZeroFlag r).zf = decide (r = 0#16) := rfl
@[simp] theorem State.setZeroFlag_nf (s : State) (r : Word) : (s.setZeroFlag r).nf = s.nf := rfl
@[simp] theorem State.setZeroFlag_bf (s : State) (r : Word) : (s.setZeroFlag r).bf = s.bf := rfl
@[simp] theorem State.setZeroFlag_pfx (s : State) (r : Word) : (s.setZeroFlag r).pfx = s.pfx := rfl
@[simp] theorem State.setZeroFlag_pending (s : State) (r : Word) : (s.setZeroFlag r).pending = s.pending := rfl
@[simp] theorem State.setZeroFlag_ds (s : State) (r : Word) : (s.setZeroFlag r).ds = s.ds := rfl
@[simp] theorem State.setZeroFlag_ss (s : State) (r : Word) : (s.setZeroFlag r).ss = s.ss := rfl
@[simp] theorem State.setZeroFlag_imem (s : State) (r : Word) : (s.setZeroFlag r).imem = s.imem := rfl
@[simp] theorem State.setZeroFlag_dmem (s : State) (r : Word) : (s.setZeroFlag r).dmem = s.dmem := rfl
@[simp] theorem State.setZeroFlag_deviceStores (s : State) (r : Word) : (s.setZeroFlag r).deviceStores = s.deviceStores := rfl
@[simp] theorem State.setZeroFlag_envReads (s : State) (r : Word) : (s.setZeroFlag r).envReads = s.envReads := rfl

/-! ## settle: only pc and the pending transfers change, and nothing without delay slots -/

@[simp] theorem State.settle_cfg (s : State) (i : Instr) (t : State) : (s.settle i t).cfg = t.cfg := by
  unfold State.settle
  split <;> rfl
@[simp] theorem State.settle_x (s : State) (i : Instr) (t : State) : (s.settle i t).x = t.x := by
  unfold State.settle
  split <;> rfl
@[simp] theorem State.settle_zf (s : State) (i : Instr) (t : State) : (s.settle i t).zf = t.zf := by
  unfold State.settle
  split <;> rfl
@[simp] theorem State.settle_nf (s : State) (i : Instr) (t : State) : (s.settle i t).nf = t.nf := by
  unfold State.settle
  split <;> rfl
@[simp] theorem State.settle_bf (s : State) (i : Instr) (t : State) : (s.settle i t).bf = t.bf := by
  unfold State.settle
  split <;> rfl
@[simp] theorem State.settle_pfx (s : State) (i : Instr) (t : State) : (s.settle i t).pfx = t.pfx := by
  unfold State.settle
  split <;> rfl
@[simp] theorem State.settle_ds (s : State) (i : Instr) (t : State) : (s.settle i t).ds = t.ds := by
  unfold State.settle
  split <;> rfl
@[simp] theorem State.settle_ss (s : State) (i : Instr) (t : State) : (s.settle i t).ss = t.ss := by
  unfold State.settle
  split <;> rfl
@[simp] theorem State.settle_imem (s : State) (i : Instr) (t : State) : (s.settle i t).imem = t.imem := by
  unfold State.settle
  split <;> rfl
@[simp] theorem State.settle_dmem (s : State) (i : Instr) (t : State) : (s.settle i t).dmem = t.dmem := by
  unfold State.settle
  split <;> rfl
@[simp] theorem State.settle_deviceStores (s : State) (i : Instr) (t : State) : (s.settle i t).deviceStores = t.deviceStores := by
  unfold State.settle
  split <;> rfl
@[simp] theorem State.settle_envReads (s : State) (i : Instr) (t : State) : (s.settle i t).envReads = t.envReads := by
  unfold State.settle
  split <;> rfl

@[simp] theorem State.settle_zero {s : State} (h : s.cfg.delaySlots = 0) (i : Instr) (t : State) : s.settle i t = t := by
  simp [State.settle, h]

theorem State.settle_pc {s : State} (h : s.cfg.delaySlots ≠ 0) (i : Instr) (t : State) :
    (s.settle i t).pc = (dueTarget s.pending).getD s.pcNext := by
  simp [State.settle, h]

theorem State.settle_pending {s : State} (h : s.cfg.delaySlots ≠ 0) (i : Instr) (t : State) :
    (s.settle i t).pending = countDownAll s.pending ++ s.newTransfer i t := by
  simp [State.settle, h]

/-! ## Registers -/

@[simp] theorem State.setReg_reg_same (s : State) (r : RegNum) (v : Word) : (s.setReg r v).reg r = v := by
  simp [State.reg]

theorem State.setReg_reg_other (s : State) {r q : RegNum} (v : Word) (h : q ≠ r) :
    (s.setReg r v).reg q = s.reg q := by
  have h' : r.val ≠ q.val := fun e => h (Fin.ext e.symm)
  simp [State.reg, h']

@[simp] theorem State.retire_reg (s : State) (q : RegNum) : s.retire.reg q = s.reg q := rfl
@[simp] theorem State.goTo_reg (s : State) (t : Word) (q : RegNum) : (s.goTo t).reg q = s.reg q := rfl
@[simp] theorem State.latchPrefix_reg (s : State) (p : BitVec 12) (q : RegNum) : (s.latchPrefix p).reg q = s.reg q := rfl
@[simp] theorem State.ramWrite_reg (s : State) (a : Nat) (v : Word) (q : RegNum) : (s.ramWrite a v).reg q = s.reg q := rfl
@[simp] theorem State.placeWord_reg (s : State) (w : Word) (q : RegNum) : (s.placeWord w).reg q = s.reg q := rfl
@[simp] theorem State.setSubFlags_reg (s : State) (a b : Word) (bin : Bool) (q : RegNum) : (s.setSubFlags a b bin).reg q = s.reg q := rfl
@[simp] theorem State.setZeroFlag_reg (s : State) (r : Word) (q : RegNum) : (s.setZeroFlag r).reg q = s.reg q := rfl

/-! ## The next pc: only pc and the parameters count -/

@[simp] theorem State.setReg_pcNext (s : State) (r : RegNum) (v : Word) : (s.setReg r v).pcNext = s.pcNext := rfl
@[simp] theorem State.ramWrite_pcNext (s : State) (a : Nat) (v : Word) : (s.ramWrite a v).pcNext = s.pcNext := rfl
@[simp] theorem State.placeWord_pcNext (s : State) (w : Word) : (s.placeWord w).pcNext = s.pcNext := rfl
@[simp] theorem State.setSubFlags_pcNext (s : State) (a b : Word) (bin : Bool) : (s.setSubFlags a b bin).pcNext = s.pcNext := rfl
@[simp] theorem State.setZeroFlag_pcNext (s : State) (r : Word) : (s.setZeroFlag r).pcNext = s.pcNext := rfl

/-! ## Words of RAM -/

@[simp] theorem State.setReg_ramRead (s : State) (r : RegNum) (v : Word) (c : Nat) : (s.setReg r v).ramRead c = s.ramRead c := rfl
@[simp] theorem State.retire_ramRead (s : State) (c : Nat) : s.retire.ramRead c = s.ramRead c := rfl
@[simp] theorem State.goTo_ramRead (s : State) (t : Word) (c : Nat) : (s.goTo t).ramRead c = s.ramRead c := rfl
@[simp] theorem State.latchPrefix_ramRead (s : State) (p : BitVec 12) (c : Nat) : (s.latchPrefix p).ramRead c = s.ramRead c := rfl
@[simp] theorem State.placeWord_ramRead (s : State) (w : Word) (c : Nat) : (s.placeWord w).ramRead c = s.ramRead c := rfl
@[simp] theorem State.setSubFlags_ramRead (s : State) (a b : Word) (bin : Bool) (c : Nat) : (s.setSubFlags a b bin).ramRead c = s.ramRead c := rfl
@[simp] theorem State.setZeroFlag_ramRead (s : State) (r : Word) (c : Nat) : (s.setZeroFlag r).ramRead c = s.ramRead c := rfl

/-! ## The launch -/

@[simp] theorem State.launch_cfg (l : Launch) : (State.launch l).cfg = l.cfg := rfl
@[simp] theorem State.launch_x (l : Launch) : (State.launch l).x = l.regs := rfl
@[simp] theorem State.launch_pc (l : Launch) : (State.launch l).pc = 0#16 := rfl
@[simp] theorem State.launch_zf (l : Launch) : (State.launch l).zf = l.zf := rfl
@[simp] theorem State.launch_nf (l : Launch) : (State.launch l).nf = l.nf := rfl
@[simp] theorem State.launch_bf (l : Launch) : (State.launch l).bf = l.bf := rfl
@[simp] theorem State.launch_pfx (l : Launch) : (State.launch l).pfx = none := rfl
@[simp] theorem State.launch_pending (l : Launch) : (State.launch l).pending = [] := rfl
@[simp] theorem State.launch_ds (l : Launch) : (State.launch l).ds = l.dsInit := rfl
@[simp] theorem State.launch_ss (l : Launch) : (State.launch l).ss = l.ssInit := rfl
@[simp] theorem State.launch_imem (l : Launch) : (State.launch l).imem = l.program := rfl
@[simp] theorem State.launch_dmem (l : Launch) : (State.launch l).dmem = l.ram := rfl
@[simp] theorem State.launch_deviceStores (l : Launch) : (State.launch l).deviceStores = [] := rfl
@[simp] theorem State.launch_envReads (l : Launch) : (State.launch l).envReads = 0 := rfl

end Sys2Proof.Machine
end

