-- ==== Sys2Proof/Laws/Memory.lean ====
section
/-! SUPPORT. The laws of a memory: a read after a write, the canonical form kept, and where the words of a
written memory come from. -/

namespace Sys2Proof.Machine

theorem Memory.read_nil (a : Nat) : Memory.read [] a = Config.unlisted := rfl

theorem Memory.read_cons (b : Nat) (w : Word) (m : Memory) (a : Nat) :
    Memory.read ((b, w) :: m) a = if b = a then w else Memory.read m a := rfl

/-- An address below every listed one is unlisted. -/
theorem Memory.read_of_lt {m : Memory} {a : Nat} (h : ∀ c ∈ m, a < c.1) : Memory.read m a = Config.unlisted := by
  induction m with
  | nil => rfl
  | cons c m ih =>
    obtain ⟨b, w⟩ := c
    have hb : a < b := h (b, w) (by simp)
    rw [Memory.read_cons, if_neg (by omega), ih fun c hc => h c (by simp [hc])]

/-! ## entry -/

theorem Memory.read_entry_same {m : Memory} {a : Nat} (v : Word) (h : ∀ c ∈ m, a < c.1) :
    Memory.read (Memory.entry a v m) a = v := by
  unfold Memory.entry
  split
  · next hv => rw [Memory.read_of_lt h, hv]
  · simp [Memory.read_cons]

theorem Memory.read_entry_other {a c : Nat} (v : Word) (m : Memory) (h : c ≠ a) :
    Memory.read (Memory.entry a v m) c = Memory.read m c := by
  unfold Memory.entry
  split
  · rfl
  · rw [Memory.read_cons, if_neg (fun e => h e.symm)]

theorem Memory.mem_entry {a : Nat} {v : Word} {m : Memory} {c : Nat × Word}
    (h : c ∈ Memory.entry a v m) : c = (a, v) ∨ c ∈ m := by
  unfold Memory.entry at h
  split at h
  · exact .inr h
  · simpa using h

theorem Memory.entry_wf {a : Nat} {v : Word} {m : Memory} (hm : Memory.wf m) (h : ∀ c ∈ m, a < c.1) :
    Memory.wf (Memory.entry a v m) := by
  unfold Memory.entry
  split
  · exact hm
  · next hv =>
    refine ⟨List.pairwise_cons.2 ⟨h, hm.1⟩, fun c hc => ?_⟩
    rcases List.mem_cons.1 hc with rfl | hc
    · exact hv
    · exact hm.2 c hc

/-! ## write -/

theorem Memory.wf_tail {b : Nat} {w : Word} {m : Memory} (h : Memory.wf ((b, w) :: m)) : Memory.wf m :=
  ⟨(List.pairwise_cons.1 h.1).2, fun c hc => h.2 c (by simp [hc])⟩

theorem Memory.wf_head {b : Nat} {w : Word} {m : Memory} (h : Memory.wf ((b, w) :: m)) : ∀ c ∈ m, b < c.1 :=
  (List.pairwise_cons.1 h.1).1

/-- Every word of a written memory is the one written or was there before. -/
theorem Memory.mem_write {m : Memory} {a : Nat} {v : Word} {c : Nat × Word}
    (h : c ∈ Memory.write m a v) : c = (a, v) ∨ c ∈ m := by
  induction m with
  | nil => exact Memory.mem_entry h
  | cons d m ih =>
    obtain ⟨b, w⟩ := d
    simp only [Memory.write] at h
    split at h
    · exact Memory.mem_entry h
    · split at h
      · rcases Memory.mem_entry h with h | h <;> simp [h]
      · rcases List.mem_cons.1 h with h | h
        · simp [h]
        · rcases ih h with h | h <;> simp [h]

/-- A write leaves every other address alone. -/
theorem Memory.read_write_other {m : Memory} {a c : Nat} (v : Word) (h : c ≠ a) :
    Memory.read (Memory.write m a v) c = Memory.read m c := by
  induction m with
  | nil => exact Memory.read_entry_other v [] h
  | cons d m ih =>
    obtain ⟨b, w⟩ := d
    simp only [Memory.write]
    split
    · exact Memory.read_entry_other v _ h
    · split
      · next hb => rw [Memory.read_entry_other v _ h, Memory.read_cons, if_neg (by omega)]
      · simp only [Memory.read_cons, ih]

/-- In a canonical memory a read after a write to the same address gives the word written. -/
theorem Memory.read_write_same {m : Memory} (hm : Memory.wf m) (a : Nat) (v : Word) :
    Memory.read (Memory.write m a v) a = v := by
  induction m with
  | nil => exact Memory.read_entry_same v (by simp)
  | cons d m ih =>
    obtain ⟨b, w⟩ := d
    have hlt := Memory.wf_head hm
    simp only [Memory.write]
    split
    · next hab =>
      refine Memory.read_entry_same v fun c hc => ?_
      rcases List.mem_cons.1 hc with rfl | hc
      · exact hab
      · exact Nat.lt_trans hab (hlt c hc)
    · split
      · next hb => exact Memory.read_entry_same v fun c hc => hb ▸ hlt c hc
      · next hb => rw [Memory.read_cons, if_neg (fun e => hb e.symm), ih (Memory.wf_tail hm)]

/-- A write keeps the canonical form. -/
theorem Memory.write_wf {m : Memory} (hm : Memory.wf m) (a : Nat) (v : Word) : Memory.wf (Memory.write m a v) := by
  induction m with
  | nil => exact Memory.entry_wf hm (by simp)
  | cons d m ih =>
    obtain ⟨b, w⟩ := d
    have hlt := Memory.wf_head hm
    simp only [Memory.write]
    split
    · next hab =>
      refine Memory.entry_wf hm fun c hc => ?_
      rcases List.mem_cons.1 hc with rfl | hc
      · exact hab
      · exact Nat.lt_trans hab (hlt c hc)
    · split
      · next hb => exact Memory.entry_wf (Memory.wf_tail hm) fun c hc => hb ▸ hlt c hc
      · have ht := ih (Memory.wf_tail hm)
        refine ⟨List.pairwise_cons.2 ⟨fun c hc => ?_, ht.1⟩, fun c hc => ?_⟩
        · rcases Memory.mem_write hc with rfl | hc
          · show b < a
            omega
          · exact hlt c hc
        · rcases List.mem_cons.1 hc with rfl | hc
          · exact hm.2 _ (by simp)
          · exact ht.2 c hc

/-! ## RAM of a state -/

theorem State.ramWrite_ramRead_same {s : State} (h : Memory.wf s.dmem) (a : Nat) (v : Word) :
    (s.ramWrite a v).ramRead a = v := Memory.read_write_same h a v

theorem State.ramWrite_ramRead_other (s : State) {a c : Nat} (v : Word) (h : c ≠ a) :
    (s.ramWrite a v).ramRead c = s.ramRead c := Memory.read_write_other v h

/-! ## The program text of a launch -/

/-- Every word of a placed list stands at or above the first address. -/
theorem Memory.ofWords_bound {ws : List Word} {a : Nat} {c : Nat × Word} (h : c ∈ Memory.ofWords a ws) :
    a ≤ c.1 := by
  induction ws generalizing a with
  | nil => simp [Memory.ofWords] at h
  | cons w ws ih =>
    rcases Memory.mem_entry h with rfl | h
    · exact Nat.le_refl _
    · have := ih h
      omega

theorem Memory.ofWords_wf (ws : List Word) (a : Nat) : Memory.wf (Memory.ofWords a ws) := by
  induction ws generalizing a with
  | nil => exact ⟨List.Pairwise.nil, by simp [Memory.ofWords]⟩
  | cons w ws ih =>
    exact Memory.entry_wf (ih (a + 1)) fun c hc => by
      have := Memory.ofWords_bound hc
      omega

/-- A placed list reads as its words. -/
theorem Memory.read_ofWords {ws : List Word} (a n : Nat) (h : n < ws.length) :
    Memory.read (Memory.ofWords a ws) (a + n) = ws[n] := by
  induction ws generalizing a n with
  | nil => simp at h
  | cons w ws ih =>
    cases n with
    | zero =>
      refine Memory.read_entry_same w fun c hc => ?_
      have := Memory.ofWords_bound hc
      omega
    | succ n =>
      have hn : n < ws.length := by simpa using h
      have := ih (a + 1) n hn
      rw [show a + 1 + n = a + (n + 1) by omega] at this
      simpa [Memory.ofWords, Memory.read_entry_other w _ (show a + (n + 1) ≠ a by omega)] using this

end Sys2Proof.Machine
end

