-- ==== Sys2Proof/Laws/Ops.lean ====
section
/-! SUPPORT. For each shared operation, once, what it can answer; proofs cite these and do not unfold it. -/

namespace Sys2Proof.Machine

/-! ## Ranges of the parameters -/

theorem Config.wf_iff (c : Config) :
    c.wf = true ↔ 10 ≤ c.pcw ∧ c.pcw ≤ 16 ∧ 1 ≤ c.imemWords ∧ c.imemWords ≤ 2 ^ c.pcw ∧ c.dsw ≤ 16 ∧ c.ssw ≤ 16 := by
  simp [Config.wf]

theorem Config.wf_pcw {c : Config} (h : c.wf = true) : 2 ^ 10 ≤ 2 ^ c.pcw ∧ 2 ^ c.pcw ≤ 2 ^ 16 := by
  have h' := (Config.wf_iff c).1 h
  exact ⟨Nat.pow_le_pow_right (by decide) h'.1, Nat.pow_le_pow_right (by decide) h'.2.1⟩

/-! ## Program counter -/

/-- A number below 2^PCW fits the 16 bits pc is held in. -/
theorem ofNat_mod_pcw {c : Config} (h : c.wf = true) (n : Nat) :
    (BitVec.ofNat 16 (n % 2 ^ c.pcw)).toNat = n % 2 ^ c.pcw := by
  have hp := Config.wf_pcw h
  have : n % 2 ^ c.pcw < 2 ^ c.pcw := Nat.mod_lt _ (by omega)
  rw [BitVec.toNat_ofNat, Nat.mod_eq_of_lt (by omega)]

theorem State.pcNext_toNat {s : State} (h : s.cfg.wf = true) :
    s.pcNext.toNat = (s.pc.toNat + 1) % 2 ^ s.cfg.pcw := ofNat_mod_pcw h _

theorem truncPc_toNat {c : Config} (h : c.wf = true) (t : Word) : (truncPc c t).toNat = t.toNat % 2 ^ c.pcw :=
  ofNat_mod_pcw h _

theorem State.pcNext_lt {s : State} (h : s.cfg.wf = true) : s.pcNext.toNat < 2 ^ s.cfg.pcw := by
  rw [State.pcNext_toNat h]
  exact Nat.mod_lt _ (Nat.two_pow_pos _)

theorem truncPc_lt {c : Config} (h : c.wf = true) (t : Word) : (truncPc c t).toNat < 2 ^ c.pcw := by
  rw [truncPc_toNat h]
  exact Nat.mod_lt _ (Nat.two_pow_pos _)

/-- The epilogue meets `Retired`. -/
theorem State.retire_retired {s t : State} (h : s.cfg.wf = true) (hc : t.cfg = s.cfg) (hp : t.pc = s.pc) :
    Retired s t.retire := by
  refine ⟨rfl, ?_⟩
  rw [State.retire_pc, State.pcNext_toNat (hc ▸ h), hc, hp]

/-! ## The prefix check -/

@[simp] theorem State.unprefixed_none {s : State} (h : s.pfx = none) (t : State) : s.unprefixed t = .next t := by
  simp [State.unprefixed, h]

@[simp] theorem State.unprefixed_some {s : State} {p : BitVec 12} (h : s.pfx = some p) (t : State) :
    s.unprefixed t = .fault (.prefixMisuse s.pc) := by
  simp [State.unprefixed, h]

/-- If the prefix check lets an instruction go on, no prefix was pending and the answer is the given state. -/
theorem State.unprefixed_next {s t u : State} (h : s.unprefixed t = .next u) : s.pfx = none ∧ u = t := by
  cases hp : s.pfx with
  | none => rw [State.unprefixed_none hp] at h; exact ⟨rfl, by injection h with h; exact h.symm⟩
  | some p => rw [State.unprefixed_some hp] at h; cases h

/-! ## The immediate operand -/

theorem State.immediate_none {s : State} (h : s.pfx = none) (imm : BitVec 4) :
    s.immediate imm = imm.signExtend 16 := by
  simp [State.immediate, h]

theorem State.immediate_some {s : State} {p : BitVec 12} (h : s.pfx = some p) (imm : BitVec 4) :
    s.immediate imm = p ++ imm := by
  simp [State.immediate, h]

/-! ## Loads and stores -/

theorem State.load_ram {s : State} {rd : RegNum} {a : Nat} (h : classify s.cfg.memMap a = .ram) :
    s.load rd a = .next (s.setReg rd (s.ramRead a)).retire := by
  simp [State.load, h]

theorem State.load_device {s : State} {rd : RegNum} {a : Nat} (h : classify s.cfg.memMap a = .device) :
    s.load rd a =
      .next { (s.setReg rd (Config.deviceWord s.envReads a)).retire with envReads := s.envReads + 1 } := by
  simp [State.load, h]

theorem State.load_absent {s : State} {rd : RegNum} {a : Nat} (h : classify s.cfg.memMap a = .absent) :
    s.load rd a = .refused (.stuck s.pc a) := by
  simp [State.load, h]

theorem State.store_ram {s : State} {a : Nat} {v : Word} (h : classify s.cfg.memMap a = .ram) :
    s.store a v = .next (s.ramWrite a v).retire := by
  simp [State.store, h]

theorem State.store_device {s : State} {a : Nat} {v : Word} (h : classify s.cfg.memMap a = .device) :
    s.store a v = .next { s.retire with deviceStores := s.deviceStores ++ [⟨a, v⟩] } := by
  simp [State.store, h]

theorem State.store_absent {s : State} {a : Nat} {v : Word} (h : classify s.cfg.memMap a = .absent) :
    s.store a v = .refused (.stuck s.pc a) := by
  simp [State.store, h]

/-- Everything a load that goes on can do: it writes `rd`, and for a device counts the load. -/
theorem State.load_next {s t : State} {rd : RegNum} {a : Nat} (h : s.load rd a = .next t) :
    ∃ v n, t = { (s.setReg rd v).retire with envReads := n } ∧
      ((classify s.cfg.memMap a = .ram ∧ v = s.ramRead a ∧ n = s.envReads) ∨
        (classify s.cfg.memMap a = .device ∧ n = s.envReads + 1)) := by
  cases hc : classify s.cfg.memMap a with
  | ram =>
    rw [State.load_ram hc] at h
    injection h with h
    exact ⟨_, _, h.symm, .inl ⟨rfl, rfl, rfl⟩⟩
  | device =>
    rw [State.load_device hc] at h
    injection h with h
    exact ⟨_, _, h.symm, .inr ⟨rfl, rfl⟩⟩
  | absent => rw [State.load_absent hc] at h; cases h

/-- Everything a store that goes on can do: it writes RAM, or it is an event. -/
theorem State.store_next {s t : State} {a : Nat} {v : Word} (h : s.store a v = .next t) :
    (classify s.cfg.memMap a = .ram ∧ t = (s.ramWrite a v).retire) ∨
      (classify s.cfg.memMap a = .device ∧
        t = { s.retire with deviceStores := s.deviceStores ++ [⟨a, v⟩] }) := by
  cases hc : classify s.cfg.memMap a with
  | ram =>
    rw [State.store_ram hc] at h
    injection h with h
    exact .inl ⟨rfl, h.symm⟩
  | device =>
    rw [State.store_device hc] at h
    injection h with h
    exact .inr ⟨rfl, h.symm⟩
  | absent => rw [State.store_absent hc] at h; cases h

/-! ## Subtraction -/

theorem diff_toInt (a b : Word) (bin : Bool) :
    ((diff a b bin).toNat : Int) = ((a.toNat : Int) - b.toNat - bin.toNat) % 65536 := by
  simp [diff, BitVec.toNat_ofInt]
  omega

theorem diff_isDiff (a b : Word) (bin : Bool) : IsDiff a b bin (diff a b bin) := diff_toInt a b bin

/-- Without a borrow-in the difference is the subtraction of 16-bit words. -/
theorem diff_eq_sub (a b : Word) : diff a b false = a - b := by
  apply BitVec.eq_of_toNat_eq
  have h := diff_toInt a b false
  have ha := a.isLt
  have hb := b.isLt
  rw [BitVec.toNat_sub]
  simp only [Bool.toNat_false] at h
  omega

theorem borrow_eq_borrows (a b : Word) (bin : Bool) : borrow a b bin = Borrows a b bin := rfl

/-! ## Addresses -/

/-- A data address of SEGW + 16 bits, when the segment register fits its width (R36, R53). -/
theorem dataAddress_lt {seg ptr : Word} {n : Nat} (h : seg.toNat < 2 ^ n) : dataAddress seg ptr < 2 ^ (n + 16) := by
  have hp := ptr.isLt
  have : 2 ^ (n + 16) = 2 ^ n * 65536 := by rw [Nat.pow_add]
  unfold dataAddress
  omega

/-! ## The step -/

/-- Without delay slots the outcome of an instruction is its own. -/
@[simp] theorem State.delay_zero {s : State} (h : s.cfg.delaySlots = 0) (i : Instr) (o : Result) : s.delay i o = o := by
  cases o <;> simp [State.delay, h]

/-- Everything an outcome with its slots that goes on can be. -/
theorem State.delay_next {s t : State} {i : Instr} {o : Result} (h : s.delay i o = .next t) :
    ∃ u, o = .next u ∧ t = s.settle i u := by
  cases o with
  | next u => injection h with h; exact ⟨u, rfl, h.symm⟩
  | fault f => cases h
  | refused r => cases h

/-- Everything a step that goes on can be: the instruction fetched, executed, with its slots. -/
theorem step_next {s t : State} (h : step s = .next t) :
    ∃ i u, s.fetch = .instr i ∧ exec i s = .next u ∧ t = s.settle i u := by
  unfold step at h
  split at h
  · next i hi =>
    obtain ⟨u, hu, ht⟩ := State.delay_next h
    exact ⟨i, u, hi, hu, ht⟩
  · cases h
  · cases h

/-- Everything a fetch that delivers an instruction can be. -/
theorem State.fetch_instr {s : State} {i : Instr} (h : s.fetch = .instr i) :
    s.cfg.haltPc ≠ some s.pc ∧ s.pc.toNat < s.cfg.imemWords ∧ s.cfg.codec.decode s.fetchWord = .ok i := by
  unfold State.fetch at h
  split at h
  · split at h <;> cases h
  · next hh =>
    unfold State.fetchDecode at h
    split at h
    · cases h
    · next hr =>
      split at h
      · next j hj => injection h with h; exact ⟨hh, by omega, h ▸ hj⟩
      · cases h

end Sys2Proof.Machine
end

