-- ==== Sys2Proof/Laws/DelaySlots.lean ====
section
/-! SUPPORT. The pending transfers through an instruction and through a count. -/

namespace Sys2Proof.Machine

/-- No instruction touches the pending transfers; the step does. -/
theorem exec_pending {i : Instr} {s t : State} (h : exec i s = .next t) : t.pending = s.pending := by
  cases i
  all_goals first
    | (injection h with h; subst h; rfl)
    | (obtain ⟨hp, rfl⟩ := State.unprefixed_next h; rfl)
    | (obtain ⟨hp, rfl⟩ := State.unprefixed_next h; split <;> rfl)
    | (obtain ⟨v, n, rfl, _⟩ := State.load_next h; rfl)
    | (rcases State.store_next h with ⟨_, rfl⟩ | ⟨_, rfl⟩ <;> rfl)

/-- Counting down keeps the order of the pending transfers; each that is left had one slot more. -/
theorem countDownAll_slots {l : List Transfer} (h : l.Pairwise fun p q => p.left < q.left) (h1 : ∀ p ∈ l, 1 ≤ p.left) :
   (countDownAll l).Pairwise (fun p q => p.left < q.left) ∧ ∀ p ∈ countDownAll l, ∃ q ∈ l, p.target = q.target ∧ 1 ≤ p.left ∧ p.left + 1 = q.left := by
  cases l with
  | nil => simp [countDownAll]
  | cons a l =>
    have key : ∀ m : List Transfer, m.Pairwise (fun p q => p.left < q.left) → (∀ p ∈ m, 2 ≤ p.left) → (m.map Transfer.countDown).Pairwise (fun p q => p.left < q.left) ∧ ∀ p ∈ m.map Transfer.countDown, ∃ q ∈ m, p.target = q.target ∧ 1 ≤ p.left ∧ p.left + 1 = q.left := by
      intro m hm h2
      constructor
      · rw [List.pairwise_map]
        refine hm.imp_of_mem ?_
        intro p q hp hq hpq
        have := h2 p hp; have := h2 q hq
        simp [Transfer.countDown]; omega
      · intro p hp
        simp at hp
        obtain ⟨q, hq, rfl⟩ := hp
        have := h2 q hq
        exact ⟨q, hq, rfl, by simp [Transfer.countDown]; omega, by simp [Transfer.countDown]; omega⟩
    rw [List.pairwise_cons] at h
    simp only [countDownAll]
    split
    · have := key l h.2 (fun p hp => by have := h.1 p hp; have := h1 a (by simp); omega)
      exact ⟨this.1, fun p hp => by obtain ⟨q, hq, r⟩ := this.2 p hp; exact ⟨q, by simp [hq], r⟩⟩
    · next hl =>
      exact key (a :: l) (List.pairwise_cons.2 h) (fun p hp => by
        rcases List.mem_cons.1 hp with rfl | hp
        · omega
        · have := h.1 p hp; omega)

end Sys2Proof.Machine
end

