-- ==== Sys2Proof/Laws/Families.lean ====
section
/-! SUPPORT. For the shared effect of each family, once, everything it does: the value, the flags and the
frame. -/

namespace Sys2Proof.Machine

/-! ## Frames -/

/-- A state that differs from `s` at most in the flags, and as `setReg rd v` and the epilogue make it. -/
theorem writesOnly_of_fields {s t : State} {rd : RegNum} {v : Word} (h : s.cfg.wf = true)
    (hx : t.x = (s.setReg rd v).x) (hd : t.ds = s.ds) (hs : t.ss = s.ss) (hc : t.cfg = s.cfg)
    (hi : t.imem = s.imem) (hm : t.dmem = s.dmem) (he : t.deviceStores = s.deviceStores)
    (hn : t.envReads = s.envReads) (hq : t.pending = s.pending) (hp : t.pfx = none) (hpc : t.pc = s.pcNext) : WritesOnly rd s t := by
  refine ⟨fun r hr => ?_, ⟨hd, hs, hc, hq, fun a => by rw [hi]⟩, ⟨fun a => by simp [State.ramRead, hm], he, hn⟩, hp, ?_⟩
  · rw [← State.setReg_reg_other s v hr]
    simp only [State.reg, hx]
  · rw [hpc, State.pcNext_toNat h]

theorem State.goTo_sameButPc (s : State) (t : Word) : SameButPc s (s.goTo t) :=
  ⟨fun _ => rfl, ⟨rfl, rfl, rfl⟩, ⟨rfl, rfl, rfl, rfl, fun _ => rfl⟩, fun _ => rfl, rfl, rfl⟩

theorem State.retire_sameButPc (s : State) : SameButPc s s.retire :=
  ⟨fun _ => rfl, ⟨rfl, rfl, rfl⟩, ⟨rfl, rfl, rfl, rfl, fun _ => rfl⟩, fun _ => rfl, rfl, rfl⟩

/-! ## Subtraction -/

theorem State.subtract_plainDiff {s : State} (h : s.cfg.wf = true) (rd : RegNum) (ab : Inputs) (bin : State → Bool) :
    PlainDiff bin s rd ab.1 ab.2 (s.subtract rd ab (bin s)) := by
  refine ⟨?_, writesOnly_of_fields (v := diff ab.1 ab.2 (bin s)) h rfl rfl rfl rfl rfl rfl rfl rfl rfl rfl rfl, rfl, rfl, rfl⟩
  simpa [State.subtract] using diff_isDiff ab.1 ab.2 (bin s)

theorem State.subtractFlags_flagDiff {s : State} (h : s.cfg.wf = true) (rd : RegNum) (ab : Inputs)
    (bin : State → Bool) : FlagDiff bin s rd ab.1 ab.2 (s.subtractFlags rd ab (bin s)) := by
  refine ⟨?_, writesOnly_of_fields (v := diff ab.1 ab.2 (bin s)) h rfl rfl rfl rfl rfl rfl rfl rfl rfl rfl rfl, ?_, rfl, rfl⟩
  · simpa [State.subtractFlags] using diff_isDiff ab.1 ab.2 (bin s)
  · simp [State.subtractFlags, BitVec.msb_eq_getLsbD_last]

theorem State.compare_compares {s : State} (h : s.cfg.wf = true) (rd : RegNum) (ab : Inputs) :
    Compares s rd ab.1 ab.2 (s.compare ab) := by
  refine ⟨?_, ⟨_, diff_isDiff ab.1 ab.2 false, ?_⟩, rfl, fun _ => rfl, ⟨rfl, rfl, rfl, rfl, fun _ => rfl⟩,
    ⟨fun _ => rfl, rfl, rfl⟩, rfl, State.pcNext_toNat h⟩
  · simp [State.compare]
  · simp [State.compare, BitVec.msb_eq_getLsbD_last]

/-! ## Bitwise -/

theorem State.bitwise_plainBits {s : State} (h : s.cfg.wf = true) {f : Bool → Bool → Bool} {g : Inputs → Word}
    (hg : ∀ ab n, n < 16 → (g ab).getLsbD n = f (ab.1.getLsbD n) (ab.2.getLsbD n)) (rd : RegNum) (ab : Inputs) :
    PlainBits f s rd ab.1 ab.2 (s.bitwise rd (g ab)) := by
  refine ⟨fun n hn => ?_, writesOnly_of_fields (v := g ab) h rfl rfl rfl rfl rfl rfl rfl rfl rfl rfl rfl, rfl, rfl, rfl⟩
  simpa [State.bitwise] using hg ab n hn

theorem State.bitwiseFlags_flagBits {s : State} (h : s.cfg.wf = true) {f : Bool → Bool → Bool} {g : Inputs → Word}
    (hg : ∀ ab n, n < 16 → (g ab).getLsbD n = f (ab.1.getLsbD n) (ab.2.getLsbD n)) (rd : RegNum) (ab : Inputs) :
    FlagBits f s rd ab.1 ab.2 (s.bitwiseFlags rd (g ab)) := by
  refine ⟨fun n hn => ?_, writesOnly_of_fields (v := g ab) h rfl rfl rfl rfl rfl rfl rfl rfl rfl rfl rfl, ?_, rfl, rfl⟩
  · simpa [State.bitwiseFlags] using hg ab n hn
  · simp [State.bitwiseFlags, ← BitVec.toNat_inj]

theorem Inputs.and_bit (ab : Inputs) (n : Nat) (_ : n < 16) :
    (Inputs.and ab).getLsbD n = (ab.1.getLsbD n && ab.2.getLsbD n) := by
  simp [Inputs.and]

theorem Inputs.nand_bit (ab : Inputs) (n : Nat) (h : n < 16) :
    (Inputs.nand ab).getLsbD n = !(ab.1.getLsbD n && ab.2.getLsbD n) := by
  simp [Inputs.nand, h]

theorem Inputs.or_bit (ab : Inputs) (n : Nat) (_ : n < 16) :
    (Inputs.or ab).getLsbD n = (ab.1.getLsbD n || ab.2.getLsbD n) := by
  simp [Inputs.or]

theorem Inputs.xor_bit (ab : Inputs) (n : Nat) (_ : n < 16) :
    (Inputs.xor ab).getLsbD n = (ab.1.getLsbD n ^^ ab.2.getLsbD n) := by
  simp [Inputs.xor]

/-! ## Multiply -/

theorem Inputs.productLow_toNat (ab : Inputs) :
    (Inputs.productLow ab).toNat = ab.1.toNat * ab.2.toNat % 65536 := by
  simp [Inputs.productLow, Inputs.product]

theorem Inputs.productHigh_toNat (ab : Inputs) :
    (Inputs.productHigh ab).toNat = ab.1.toNat * ab.2.toNat / 65536 := by
  have : ab.1.toNat * ab.2.toNat < 65536 * 65536 := Nat.mul_lt_mul'' ab.1.isLt ab.2.isLt
  simp only [Inputs.productHigh, Inputs.product, BitVec.toNat_ofNat]
  omega

theorem State.multiply_productLow {s : State} (h : s.cfg.wf = true) (rd : RegNum) (ab : Inputs) :
    ProductLow s rd ab.1 ab.2 (s.multiply rd (Inputs.productLow ab)) := by
  refine ⟨?_, writesOnly_of_fields (v := Inputs.productLow ab) h rfl rfl rfl rfl rfl rfl rfl rfl rfl rfl rfl, rfl, rfl, rfl⟩
  simpa [State.multiply] using Inputs.productLow_toNat ab

theorem State.multiply_productHigh {s : State} (h : s.cfg.wf = true) (rd : RegNum) (ab : Inputs) :
    ProductHigh s rd ab.1 ab.2 (s.multiply rd (Inputs.productHigh ab)) := by
  refine ⟨?_, writesOnly_of_fields (v := Inputs.productHigh ab) h rfl rfl rfl rfl rfl rfl rfl rfl rfl rfl rfl, rfl, rfl, rfl⟩
  simpa [State.multiply] using Inputs.productHigh_toNat ab

/-! ## Flow control -/

theorem State.bxTarget_zero {s : State} (h : s.cfg.bxUpper = .zero) (addr : BitVec 10) :
    (s.bxTarget addr).toNat = addr.toNat := by
  have := addr.isLt
  simp only [State.bxTarget, h, BitVec.toNat_setWidth]
  omega

theorem State.bxTarget_keep {s : State} (h : s.cfg.bxUpper = .keep) (addr : BitVec 10) :
    (s.bxTarget addr).toNat = s.pc.toNat / 1024 * 1024 + addr.toNat := by
  have hp := s.pc.isLt
  simp only [State.bxTarget, h, BitVec.toNat_append, BitVec.extractLsb'_toNat, Nat.shiftRight_eq_div_pow]
  rw [← Nat.shiftLeft_add_eq_or_of_lt addr.isLt, Nat.shiftLeft_eq]
  omega

theorem exec_jump (c : Cond) (addr : BitVec 10) (s : State) : exec (c.jump addr) s = s.condJump c addr := by
  cases c <;> rfl

theorem encode_jump (c : Cond) (addr : BitVec 10) : encode (c.jump addr) = wordBx c addr := by
  cases c <;> rfl

/-- Everything a conditional jump does while no prefix is pending. -/
theorem State.condJump_answers {s : State} (h : s.cfg.wf = true) (hp : s.pfx = none) (c : Cond) (addr : BitVec 10) :
    Answers (s.condJump c addr) fun t =>
      t.pc.toNat = (if s.taken c then (s.bxTarget addr).toNat else (s.pc.toNat + 1) % 2 ^ s.cfg.pcw) ∧
      t.pfx = none ∧ SameButPc s t := by
  rw [State.condJump, State.unprefixed_none hp]
  refine ⟨_, rfl, ?_⟩
  split
  · exact ⟨rfl, rfl, s.goTo_sameButPc _⟩
  · exact ⟨State.pcNext_toNat h, rfl, s.retire_sameButPc⟩

theorem State.branch_spec {s : State} (h : s.cfg.wf = true) (target : Word) :
    (s.branch target).pc.toNat = target.toNat % 2 ^ s.cfg.pcw ∧ (s.branch target).pfx = none ∧
      SameButPc s (s.branch target) :=
  ⟨truncPc_toNat h _, rfl, s.goTo_sameButPc _⟩

theorem State.branchLink_spec {s : State} (h : s.cfg.wf = true) (rd : RegNum) (target : Word) :
    ((s.branchLink rd target).reg rd).toNat = (s.pc.toNat + 1) % 2 ^ s.cfg.pcw ∧
      (s.branchLink rd target).pc.toNat = target.toNat % 2 ^ s.cfg.pcw ∧ (s.branchLink rd target).pfx = none ∧
      OtherRegs rd s (s.branchLink rd target) ∧ SameFlags s (s.branchLink rd target) ∧
      SameSystem s (s.branchLink rd target) ∧ SameData s (s.branchLink rd target) := by
  refine ⟨?_, truncPc_toNat h _, rfl, fun r hr => ?_, ⟨rfl, rfl, rfl⟩, ⟨rfl, rfl, rfl, rfl, fun _ => rfl⟩, fun _ => rfl, rfl, rfl⟩
  · simp [State.branchLink, State.branch, State.pcNext_toNat h]
  · simp [State.branchLink, State.branch, State.setReg_reg_other _ _ hr]

/-! ## Loads and stores -/

/-- A load of RAM: the value and the frame. -/
theorem State.loaded_spec {s : State} (h : s.cfg.wf = true) (rd : RegNum) (v : Word) :
    (s.setReg rd v).retire.reg rd = v ∧ WritesOnly rd s (s.setReg rd v).retire ∧ SameFlags s (s.setReg rd v).retire :=
  ⟨by simp, writesOnly_of_fields (v := v) h rfl rfl rfl rfl rfl rfl rfl rfl rfl rfl rfl, rfl, rfl, rfl⟩

end Sys2Proof.Machine
end

