-- ==== Sys2Proof/Laws/PerInstr.lean ====
section
/-! SUPPORT. The family `Canonical`, one lemma for each instruction: what an instruction stands for in the
machine is a well-formed instruction of the same format and the same word (R98, R110). -/

namespace Sys2Proof.Laws.Canonical

/-- The canonical term of `i` is well formed, has the word of `i` and the format of `i`. -/
def Statement (i : Instr) : Prop :=
  i.canonical.wellFormed = true ∧ encode i.canonical = encode i ∧ i.canonical.format = i.format

theorem subi (rd rs : RegNum) (imm : BitVec 4) : Statement (.subi rd rs imm) := ⟨rfl, rfl, rfl⟩
theorem subic (rd rs : RegNum) (imm : BitVec 4) : Statement (.subic rd rs imm) := ⟨rfl, rfl, rfl⟩
theorem lwD (rd rs : RegNum) (imm : BitVec 4) : Statement (.lwD rd rs imm) := ⟨rfl, rfl, rfl⟩
theorem lwS (rd rs : RegNum) (imm : BitVec 4) : Statement (.lwS rd rs imm) := ⟨rfl, rfl, rfl⟩
theorem swD (rd rs : RegNum) (imm : BitVec 4) : Statement (.swD rd rs imm) := ⟨rfl, rfl, rfl⟩
theorem swS (rd rs : RegNum) (imm : BitVec 4) : Statement (.swS rd rs imm) := ⟨rfl, rfl, rfl⟩
theorem subRr (rd rs : RegNum) : Statement (.subRr rd rs) := ⟨rfl, rfl, rfl⟩
theorem subcRr (rd rs : RegNum) : Statement (.subcRr rd rs) := ⟨rfl, rfl, rfl⟩
theorem sbbRr (rd rs : RegNum) : Statement (.sbbRr rd rs) := ⟨rfl, rfl, rfl⟩
theorem sbbcRr (rd rs : RegNum) : Statement (.sbbcRr rd rs) := ⟨rfl, rfl, rfl⟩
theorem andRr (rd rs : RegNum) : Statement (.andRr rd rs) := ⟨rfl, rfl, rfl⟩
theorem andcRr (rd rs : RegNum) : Statement (.andcRr rd rs) := ⟨rfl, rfl, rfl⟩
theorem nandRr (rd rs : RegNum) : Statement (.nandRr rd rs) := ⟨rfl, rfl, rfl⟩
theorem nandcRr (rd rs : RegNum) : Statement (.nandcRr rd rs) := ⟨rfl, rfl, rfl⟩
theorem orRr (rd rs : RegNum) : Statement (.orRr rd rs) := ⟨rfl, rfl, rfl⟩
theorem orcRr (rd rs : RegNum) : Statement (.orcRr rd rs) := ⟨rfl, rfl, rfl⟩
theorem xorRr (rd rs : RegNum) : Statement (.xorRr rd rs) := ⟨rfl, rfl, rfl⟩
theorem xorcRr (rd rs : RegNum) : Statement (.xorcRr rd rs) := ⟨rfl, rfl, rfl⟩
theorem mullRr (rd rs : RegNum) : Statement (.mullRr rd rs) := ⟨rfl, rfl, rfl⟩
theorem mulhRr (rd rs : RegNum) : Statement (.mulhRr rd rs) := ⟨rfl, rfl, rfl⟩
theorem cmpRr (rd rs : RegNum) : Statement (.cmpRr rd rs) := ⟨rfl, rfl, rfl⟩
theorem subRi (rd : RegNum) (imm : BitVec 4) : Statement (.subRi rd imm) := ⟨rfl, rfl, rfl⟩
theorem subcRi (rd : RegNum) (imm : BitVec 4) : Statement (.subcRi rd imm) := ⟨rfl, rfl, rfl⟩
theorem sbbRi (rd : RegNum) (imm : BitVec 4) : Statement (.sbbRi rd imm) := ⟨rfl, rfl, rfl⟩
theorem sbbcRi (rd : RegNum) (imm : BitVec 4) : Statement (.sbbcRi rd imm) := ⟨rfl, rfl, rfl⟩
theorem andRi (rd : RegNum) (imm : BitVec 4) : Statement (.andRi rd imm) := ⟨rfl, rfl, rfl⟩
theorem andcRi (rd : RegNum) (imm : BitVec 4) : Statement (.andcRi rd imm) := ⟨rfl, rfl, rfl⟩
theorem nandRi (rd : RegNum) (imm : BitVec 4) : Statement (.nandRi rd imm) := ⟨rfl, rfl, rfl⟩
theorem nandcRi (rd : RegNum) (imm : BitVec 4) : Statement (.nandcRi rd imm) := ⟨rfl, rfl, rfl⟩
theorem orRi (rd : RegNum) (imm : BitVec 4) : Statement (.orRi rd imm) := ⟨rfl, rfl, rfl⟩
theorem orcRi (rd : RegNum) (imm : BitVec 4) : Statement (.orcRi rd imm) := ⟨rfl, rfl, rfl⟩
theorem xorRi (rd : RegNum) (imm : BitVec 4) : Statement (.xorRi rd imm) := ⟨rfl, rfl, rfl⟩
theorem xorcRi (rd : RegNum) (imm : BitVec 4) : Statement (.xorcRi rd imm) := ⟨rfl, rfl, rfl⟩
theorem mullRi (rd : RegNum) (imm : BitVec 4) : Statement (.mullRi rd imm) := ⟨rfl, rfl, rfl⟩
theorem mulhRi (rd : RegNum) (imm : BitVec 4) : Statement (.mulhRi rd imm) := ⟨rfl, rfl, rfl⟩
theorem cmpRi (rd : RegNum) (imm : BitVec 4) : Statement (.cmpRi rd imm) := ⟨rfl, rfl, rfl⟩
theorem jnz (addr : BitVec 10) : Statement (.jnz addr) := ⟨rfl, rfl, rfl⟩
theorem jz (addr : BitVec 10) : Statement (.jz addr) := ⟨rfl, rfl, rfl⟩
theorem jl (addr : BitVec 10) : Statement (.jl addr) := ⟨rfl, rfl, rfl⟩
theorem jg (addr : BitVec 10) : Statement (.jg addr) := ⟨rfl, rfl, rfl⟩
theorem jb (addr : BitVec 10) : Statement (.jb addr) := ⟨rfl, rfl, rfl⟩
theorem jbe (addr : BitVec 10) : Statement (.jbe addr) := ⟨rfl, rfl, rfl⟩
theorem ja (addr : BitVec 10) : Statement (.ja addr) := ⟨rfl, rfl, rfl⟩
theorem jae (addr : BitVec 10) : Statement (.jae addr) := ⟨rfl, rfl, rfl⟩
theorem brRr (rs : RegNum) : Statement (.brRr rs) := ⟨rfl, rfl, rfl⟩
theorem brlRr (rd rs : RegNum) : Statement (.brlRr rd rs) := ⟨rfl, rfl, rfl⟩
theorem brRi (imm : BitVec 4) : Statement (.brRi imm) := ⟨rfl, rfl, rfl⟩
theorem brlRi (rd : RegNum) (imm : BitVec 4) : Statement (.brlRi rd imm) := ⟨rfl, rfl, rfl⟩
theorem i12 (imm : BitVec 12) : Statement (.i12 imm) := ⟨rfl, rfl, rfl⟩
theorem dec (rd : RegNum) : Statement (.dec rd) := ⟨rfl, rfl, rfl⟩
theorem decc (rd : RegNum) : Statement (.decc rd) := ⟨rfl, rfl, rfl⟩
theorem inc (rd : RegNum) : Statement (.inc rd) := ⟨rfl, rfl, rfl⟩
theorem incc (rd : RegNum) : Statement (.incc rd) := ⟨rfl, rfl, rfl⟩
theorem neg (rd : RegNum) : Statement (.neg rd) := ⟨rfl, rfl, rfl⟩
theorem negc (rd : RegNum) : Statement (.negc rd) := ⟨rfl, rfl, rfl⟩

end Sys2Proof.Laws.Canonical
end

