-- ==== Sys2Proof/Laws/RowCodec.lean ====
section
/-! SUPPORT. A row of a codec reads back what it writes and writes back what it reads (R90, log 24). -/

namespace Sys2Proof

/-- A field's word is 0 outside the field. -/
theorem scatterField_outside (v : Nat) : ∀ (ps : List Nat) (p : Nat), (∀ q ∈ ps, q < 16) → p ∉ ps → (scatterField v ps).getLsbD p = false := by
  intro ps
  induction ps with
  | nil => intro p _ _; simp [scatterField]
  | cons q ps ih =>
    intro p h hp
    simp at hp h
    simp only [scatterField, BitVec.getLsbD_or, ih p h.2 hp.2, Bool.or_false]
    split <;> simp [BitVec.getLsbD_twoPow]; omega

/-- A field depends on its own bits alone. -/
theorem gatherField_congr (w w' : Word) : ∀ ps : List Nat, (∀ p ∈ ps, w.getLsbD p = w'.getLsbD p) → gatherField w ps = gatherField w' ps := by
  intro ps; induction ps with
  | nil => simp [gatherField]
  | cons p ps ih => intro h; simp at h; simp [gatherField, h.1, ih h.2]

/-- A number put into a field is read back, cut to the width of the field. -/
theorem gatherField_scatterField (v : Nat) : ∀ ps : List Nat, ps.Nodup → (∀ q ∈ ps, q < 16) → gatherField (scatterField v ps) ps = v % 2 ^ ps.length := by
  intro ps
  induction ps with
  | nil => intro _ _; simp [gatherField]; omega
  | cons q ps ih =>
    intro hn h
    simp at hn h
    have h1 : (scatterField v (q :: ps)).getLsbD q = v.testBit ps.length := by
      simp only [scatterField, BitVec.getLsbD_or, scatterField_outside v ps q h.2 hn.1, Bool.or_false]
      split <;> simp_all
    have h2 : gatherField (scatterField v (q :: ps)) ps = gatherField (scatterField v ps) ps := by
      apply gatherField_congr
      intro p hp
      simp only [scatterField, BitVec.getLsbD_or]
      have : q ≠ p := fun e => hn.1 (e ▸ hp)
      split <;> simp [BitVec.getLsbD_twoPow, this]
    rw [gatherField, h1, h2, ih hn.2 h.2, List.length_cons, Nat.testBit_eq_decide_div_mod_eq]
    have : v / 2 ^ ps.length % 2 = 0 ∨ v / 2 ^ ps.length % 2 = 1 := by omega
    rw [Nat.pow_succ, Nat.mod_mul]
    rcases this with e | e <;> simp [e]; omega

/-- The bits of a field, read and put back, are the word's. -/
theorem scatterField_gatherField (w : Word) : ∀ (ps : List Nat) (p : Nat), ps.Nodup → (∀ q ∈ ps, q < 16) → p ∈ ps → (scatterField (gatherField w ps) ps).getLsbD p = w.getLsbD p := by
  have lt : ∀ ps : List Nat, gatherField w ps < 2 ^ ps.length := by
    intro ps; induction ps with
    | nil => simp [gatherField]
    | cons p ps ih => simp only [gatherField, List.length_cons, Nat.pow_succ]; have := (w.getLsbD p).toNat_le; nlinarith
  have low : ∀ (qs : List Nat) (v k : Nat), qs.length ≤ k → scatterField (v * 2 ^ k + 0) qs = 0#16 := by
    intro qs v; induction qs with
    | nil => intro k _; rfl
    | cons q qs ih =>
      intro k hk; simp at hk
      rw [scatterField, ih k (by omega)]
      rw [Nat.add_zero, Nat.testBit_mul_two_pow]
      simp; omega
  have congr' : ∀ (qs : List Nat) (v v' : Nat), v % 2 ^ qs.length = v' % 2 ^ qs.length → scatterField v qs = scatterField v' qs := by
    intro qs; induction qs with
    | nil => intros; rfl
    | cons q qs ih =>
      intro v v' h
      have hb : v.testBit qs.length = v'.testBit qs.length := by
        have := congrArg (fun n => Nat.testBit n qs.length) h
        simpa [Nat.testBit_mod_two_pow] using this
      have hm : v % 2 ^ qs.length = v' % 2 ^ qs.length := by
        have := congrArg (· % 2 ^ qs.length) h
        simpa [Nat.mod_mod_of_dvd _ (pow_dvd_pow 2 (Nat.le_succ qs.length))] using this
      rw [scatterField, scatterField, hb, ih _ _ hm]
  intro ps
  induction ps with
  | nil => simp
  | cons q ps ih =>
    intro p hn h hp
    simp at hn h
    have e : scatterField (gatherField w (q :: ps)) ps = scatterField (gatherField w ps) ps := by
      apply congr'; simp [gatherField]
    have b : (gatherField w (q :: ps)).testBit ps.length = w.getLsbD q := by
      rw [gatherField, Nat.testBit_eq_decide_div_mod_eq, Nat.mul_comm, Nat.mul_add_div (Nat.two_pow_pos _), Nat.div_eq_of_lt (lt ps)]
      cases w.getLsbD q <;> simp
    rw [scatterField, e, b, BitVec.getLsbD_or]
    rcases List.mem_cons.1 hp with rfl | hp
    · rw [scatterField_outside _ ps p h.2 hn.1]; cases hh : w.getLsbD p <;> simp [BitVec.getLsbD_twoPow]; omega
    · have : q ≠ p := fun e => hn.1 (e ▸ hp)
      rw [ih p hn.2 h.2 hp]
      split <;> simp [BitVec.getLsbD_twoPow, this]


/-- What `CodecRow.wf` says, bit by bit. -/
structure CodecRow.Ok (r : CodecRow) : Prop where
  rd : r.rd.length = r.kind.rdBits
  rs : r.rs.length = r.kind.rsBits
  imm : r.imm.length = r.kind.immBits
  nodup : r.positions.Nodup
  lt : ∀ p ∈ r.positions, p < 16
  cover : ∀ p < 16, r.mask.getLsbD p = !(r.positions.contains p)
  value : ∀ p < 16, r.mask.getLsbD p = false → r.value.getLsbD p = false

theorem CodecRow.ok_of_wf {r : CodecRow} (h : r.wf = true) : CodecRow.Ok r := by
  simp only [CodecRow.wf, Bool.and_eq_true, beq_iff_eq, decide_eq_true_eq, List.all_eq_true, List.mem_range] at h
  obtain ⟨⟨⟨⟨⟨⟨a, b⟩, c⟩, d⟩, e⟩, f⟩, g⟩ := h
  refine ⟨a, b, c, d, e, f, fun p hp hm => ?_⟩
  have := congrArg (fun w => w.getLsbD p) g
  cases hv : r.value.getLsbD p
  · rfl
  · simp [hp] at this hv hm; simp [this hv] at hm

/-- A bit is free exactly if it is in a field. -/
theorem CodecRow.mem_positions {r : CodecRow} (h : CodecRow.Ok r) {p} (hp : p < 16) : r.mask.getLsbD p = false ↔ p ∈ r.positions := by
  rw [h.cover p hp]; simp

/-- The fixed bits of a written word. -/
theorem CodecRow.write_fixed {r : CodecRow} (h : CodecRow.Ok r) (q : Parts) (p) (hp : p < 16) (hm : r.mask.getLsbD p = true) : (r.write q).getLsbD p = r.value.getLsbD p := by
  have : p ∉ r.positions := fun e => by rw [(CodecRow.mem_positions h hp).2 e] at hm; cases hm
  simp [CodecRow.positions] at this
  have hlt := h.lt
  simp [CodecRow.positions] at hlt
  simp only [CodecRow.write, BitVec.getLsbD_or]
  rw [scatterField_outside _ _ _ (fun q hq => hlt q (.inl hq)) this.1, scatterField_outside _ _ _ (fun q hq => hlt q (.inr (.inl hq))) this.2.1, scatterField_outside _ _ _ (fun q hq => hlt q (.inr (.inr hq))) this.2.2]
  simp

/-- A row holds every word it writes. -/
theorem CodecRow.write_holds {r : CodecRow} (h : CodecRow.Ok r) (q : Parts) : r.holds (r.write q) = true := by
  simp only [CodecRow.holds, beq_iff_eq]
  apply BitVec.eq_of_getLsbD_eq
  intro p hp
  rw [BitVec.getLsbD_and]
  cases hm : r.mask.getLsbD p
  · rw [h.value p hp hm]; simp
  · rw [CodecRow.write_fixed h q p hp hm]; simp

theorem CodecRow.write_rd {r : CodecRow} (h : CodecRow.Ok r) (q : Parts) {p} (hp : p ∈ r.rd) : (r.write q).getLsbD p = (scatterField q.rd r.rd).getLsbD p := by
  have hlt := h.lt; have hn := h.nodup
  simp [CodecRow.positions, List.nodup_append] at hlt hn
  have hp16 := hlt p (.inl hp)
  have hm := (CodecRow.mem_positions h hp16).2 (by simp [CodecRow.positions, hp])
  simp only [CodecRow.write, BitVec.getLsbD_or, h.value p hp16 hm]
  rw [scatterField_outside q.rs r.rs p (fun x hx => hlt x (.inr (.inl hx))) (fun e => by simp_all; aesop), scatterField_outside q.imm r.imm p (fun x hx => hlt x (.inr (.inr hx))) (fun e => by simp_all; aesop)]
  simp

theorem CodecRow.write_rs {r : CodecRow} (h : CodecRow.Ok r) (q : Parts) {p} (hp : p ∈ r.rs) : (r.write q).getLsbD p = (scatterField q.rs r.rs).getLsbD p := by
  have hlt := h.lt; have hn := h.nodup
  simp [CodecRow.positions, List.nodup_append] at hlt hn
  have hp16 := hlt p (.inr (.inl hp))
  have hm := (CodecRow.mem_positions h hp16).2 (by simp [CodecRow.positions, hp])
  simp only [CodecRow.write, BitVec.getLsbD_or, h.value p hp16 hm]
  rw [scatterField_outside q.rd r.rd p (fun x hx => hlt x (.inl hx)) (fun e => by simp_all; aesop), scatterField_outside q.imm r.imm p (fun x hx => hlt x (.inr (.inr hx))) (fun e => by simp_all; aesop)]
  simp

theorem CodecRow.write_imm {r : CodecRow} (h : CodecRow.Ok r) (q : Parts) {p} (hp : p ∈ r.imm) : (r.write q).getLsbD p = (scatterField q.imm r.imm).getLsbD p := by
  have hlt := h.lt; have hn := h.nodup
  simp [CodecRow.positions, List.nodup_append] at hlt hn
  have hp16 := hlt p (.inr (.inr hp))
  have hm := (CodecRow.mem_positions h hp16).2 (by simp [CodecRow.positions, hp])
  simp only [CodecRow.write, BitVec.getLsbD_or, h.value p hp16 hm]
  rw [scatterField_outside q.rs r.rs p (fun x hx => hlt x (.inr (.inl hx))) (fun e => by simp_all; aesop), scatterField_outside q.rd r.rd p (fun x hx => hlt x (.inl hx)) (fun e => by simp_all; aesop)]
  simp

theorem CodecRow.fields_nodup {r : CodecRow} (h : CodecRow.Ok r) : r.rd.Nodup ∧ r.rs.Nodup ∧ r.imm.Nodup := by
  have hn := h.nodup
  simp only [CodecRow.positions, List.nodup_append] at hn
  exact ⟨hn.1.1, hn.1.2.1, hn.2.1⟩

theorem CodecRow.fields_lt {r : CodecRow} (h : CodecRow.Ok r) : (∀ p ∈ r.rd, p < 16) ∧ (∀ p ∈ r.rs, p < 16) ∧ (∀ p ∈ r.imm, p < 16) := by
  have hlt := h.lt
  simp [CodecRow.positions] at hlt
  exact ⟨fun p hp => hlt p (.inl hp), fun p hp => hlt p (.inr (.inl hp)), fun p hp => hlt p (.inr (.inr hp))⟩

/-- A row reads back the instruction it writes. -/
theorem CodecRow.read_write {r : CodecRow} (h : CodecRow.Ok r) (q : Parts) (hk : r.kind = q.kind) (h1 : q.rd < 2 ^ q.kind.rdBits) (h2 : q.rs < 2 ^ q.kind.rsBits) (h3 : q.imm < 2 ^ q.kind.immBits) : r.read (r.write q) = q.instr := by
  rw [CodecRow.read, gatherField_congr _ _ r.rd (fun p hp => CodecRow.write_rd h q hp), gatherField_congr _ _ r.rs (fun p hp => CodecRow.write_rs h q hp), gatherField_congr _ _ r.imm (fun p hp => CodecRow.write_imm h q hp)]
  rw [gatherField_scatterField _ _ (CodecRow.fields_nodup h).1 (CodecRow.fields_lt h).1, gatherField_scatterField _ _ (CodecRow.fields_nodup h).2.1 (CodecRow.fields_lt h).2.1, gatherField_scatterField _ _ (CodecRow.fields_nodup h).2.2 (CodecRow.fields_lt h).2.2, h.rd, h.rs, h.imm, hk, Nat.mod_eq_of_lt h1, Nat.mod_eq_of_lt h2, Nat.mod_eq_of_lt h3]

/-- A row writes back a word it holds. -/
theorem CodecRow.write_fields {r : CodecRow} (h : CodecRow.Ok r) (w : Word) (hw : r.holds w = true) : r.write ⟨r.kind, gatherField w r.rd, gatherField w r.rs, gatherField w r.imm⟩ = w := by
  simp only [CodecRow.holds, beq_iff_eq] at hw
  apply BitVec.eq_of_getLsbD_eq
  intro p hp
  cases hm : r.mask.getLsbD p
  · have := (CodecRow.mem_positions h hp).1 hm
    simp [CodecRow.positions] at this
    rcases this with hh | hh | hh
    · rw [CodecRow.write_rd h _ hh]; exact scatterField_gatherField w _ _ (CodecRow.fields_nodup h).1 (CodecRow.fields_lt h).1 hh
    · rw [CodecRow.write_rs h _ hh]; exact scatterField_gatherField w _ _ (CodecRow.fields_nodup h).2.1 (CodecRow.fields_lt h).2.1 hh
    · rw [CodecRow.write_imm h _ hh]; exact scatterField_gatherField w _ _ (CodecRow.fields_nodup h).2.2 (CodecRow.fields_lt h).2.2 hh
  · rw [CodecRow.write_fixed h _ p hp hm, ← hw]; simp [hm]

theorem gatherField_lt (w : Word) (ps : List Nat) : gatherField w ps < 2 ^ ps.length := by
    induction ps with
    | nil => simp [gatherField]
    | cons p ps ih => simp only [gatherField, List.length_cons, Nat.pow_succ]; have := (w.getLsbD p).toNat_le; nlinarith

/-- Parts in the widths of their kind are the parts of their instruction, which is no short-hand. -/
theorem Parts.parts_instr (q : Parts) (h1 : q.rd < 2 ^ q.kind.rdBits) (h2 : q.rs < 2 ^ q.kind.rsBits) (h3 : q.imm < 2 ^ q.kind.immBits) : q.instr.parts = q ∧ q.instr.wellFormed = true := by
  obtain ⟨k, rd, rs, imm⟩ := q
  cases k with
  | lw g => cases g <;> simp_all [Parts.instr, Instr.parts, OpKind.rdBits, OpKind.rsBits, OpKind.immBits, Instr.wellFormed]
  | sw g => cases g <;> simp_all [Parts.instr, Instr.parts, OpKind.rdBits, OpKind.rsBits, OpKind.immBits, Instr.wellFormed]
  | aluRr op => cases op <;> simp_all [Parts.instr, AluOp.rr, Instr.parts, OpKind.rdBits, OpKind.rsBits, OpKind.immBits, Instr.wellFormed]
  | aluRi op => cases op <;> simp_all [Parts.instr, AluOp.ri, Instr.parts, OpKind.rdBits, OpKind.rsBits, OpKind.immBits, Instr.wellFormed]
  | jump op => cases op <;> simp_all [Parts.instr, Cond.jump, Instr.parts, OpKind.rdBits, OpKind.rsBits, OpKind.immBits, Instr.wellFormed]
  | _ => simp_all [Parts.instr, Instr.parts, OpKind.rdBits, OpKind.rsBits, OpKind.immBits, Instr.wellFormed]

/-- The parts of an instruction are in the widths of its kind and give it back. -/
theorem Instr.instr_parts (i : Instr) : i.parts.rd < 2 ^ i.parts.kind.rdBits ∧ i.parts.rs < 2 ^ i.parts.kind.rsBits ∧ i.parts.imm < 2 ^ i.parts.kind.immBits ∧ (i.wellFormed = true → i.parts.instr = i) := by
  cases i <;> (refine ⟨?_, ?_, ?_, ?_⟩ <;> simp [Parts.instr, AluOp.rr, AluOp.ri, Cond.jump, Instr.parts, OpKind.rdBits, OpKind.rsBits, OpKind.immBits, Instr.wellFormed]) <;> omega

end Sys2Proof
end

