-- ==== Sys2Proof/Machine/AssemblerText.lean ====
section
/-! DEFINITION. Source lines of the assembly language: statement shape (R101), numbers and expressions (R102),
the syntax of each format (R104) and of memory and branch operands (R106 to R108), read into a `Stmt`. What the
sources do not give (declaring a label, comments, directives; N18) is not read: labels and named constants come
as a list of values (log 23). No step reads this file. -/

namespace Sys2Proof.Machine

/-! ## Expressions (R102) -/

/-- The binary operators of R102's "bitwise operators, arithmetic operators". -/
inductive ExprOp where
  | or | xor | and | shl | shr | add | sub | mul | floorDiv | mod | pow
  deriving DecidableEq, Repr

/-- An expression over numbers and names. -/
inductive Expr where
  | num (v : Int)
  | name (n : String)
  | neg (e : Expr)
  | inv (e : Expr)
  | bin (op : ExprOp) (l r : Expr)
  deriving DecidableEq, Repr

/-- The values of labels and named constants. -/
abbrev Names := List (String × Int)

/-- Why a line is not a statement. -/
inductive TextError where
  | noMnemonic
  | unknownMnemonic (m : String)
  | operands
  | unknownName (n : String)
  | noInteger
  deriving DecidableEq, Repr

def Names.value : Names → String → Except TextError Int
  | [], n => .error (.unknownName n)
  | (m, v) :: rest, n => if m = n then .ok v else Names.value rest n

/-- `~` on an unbounded integer. -/
def intNot (a : Int) : Int := -a - 1

/-- `&` on unbounded integers, through the bits that are the sign's. -/
def intAnd : Int → Int → Int
  | .ofNat m, .ofNat n => (m &&& n : Nat)
  | .ofNat m, .negSucc n => (m ^^^ (m &&& n) : Nat)
  | .negSucc m, .ofNat n => (n ^^^ (n &&& m) : Nat)
  | .negSucc m, .negSucc n => intNot ((m ||| n : Nat))

def intOr (a b : Int) : Int := intNot (intAnd (intNot a) (intNot b))

def intXor (a b : Int) : Int := intAnd (intOr a b) (intNot (intAnd a b))

/-- The value of an operator; none where the language of the expressions gives no integer: a division by zero,
a negative shift or a negative power. -/
def ExprOp.apply (op : ExprOp) (a b : Int) : Except TextError Int :=
  match op with
  | .or => .ok (intOr a b)
  | .xor => .ok (intXor a b)
  | .and => .ok (intAnd a b)
  | .shl => if 0 ≤ b then .ok (a * 2 ^ b.toNat) else .error .noInteger
  | .shr => if 0 ≤ b then .ok (a / 2 ^ b.toNat) else .error .noInteger
  | .add => .ok (a + b)
  | .sub => .ok (a - b)
  | .mul => .ok (a * b)
  | .floorDiv => if b = 0 then .error .noInteger else .ok (Int.fdiv a b)
  | .mod => if b = 0 then .error .noInteger else .ok (Int.fmod a b)
  | .pow => if 0 ≤ b then .ok (a ^ b.toNat) else .error .noInteger

def Expr.eval (env : Names) : Expr → Except TextError Int
  | .num v => .ok v
  | .name n => Names.value env n
  | .neg e =>
    match Expr.eval env e with
    | .ok v => .ok (-v)
    | .error x => .error x
  | .inv e =>
    match Expr.eval env e with
    | .ok v => .ok (intNot v)
    | .error x => .error x
  | .bin op l r =>
    match Expr.eval env l, Expr.eval env r with
    | .ok a, .ok b => op.apply a b
    | .error x, _ => .error x
    | .ok _, .error x => .error x

/-! ## Tokens -/

inductive Token where
  /-- a run of letters, digits and underscores -/
  | word (w : List Char)
  /-- an operator of two arguments; `-` is also the sign of one -/
  | op (op : ExprOp)
  | tilde | comma | openRound | closeRound | openSquare | closeSquare
  deriving DecidableEq, Repr

def isWordChar (c : Char) : Bool := c.isAlphanum || c == '_'

/-- The word read so far, in front of the tokens after it. -/
def wordThen (w : List Char) (ts : List Token) : List Token :=
  if w.isEmpty then ts else .word w.reverse :: ts

/-- The tokens of a text; `w` is the word read so far, backwards. -/
def tokens (w : List Char) : List Char → Except TextError (List Token)
  | [] => .ok (wordThen w [])
  | '<' :: '<' :: cs => (tokens [] cs).map fun ts => wordThen w (.op .shl :: ts)
  | '>' :: '>' :: cs => (tokens [] cs).map fun ts => wordThen w (.op .shr :: ts)
  | '/' :: '/' :: cs => (tokens [] cs).map fun ts => wordThen w (.op .floorDiv :: ts)
  | '*' :: '*' :: cs => (tokens [] cs).map fun ts => wordThen w (.op .pow :: ts)
  | c :: cs =>
    if isWordChar c then tokens (c :: w) cs
    else
      match c with
      | ' ' => (tokens [] cs).map (wordThen w)
      | '\t' => (tokens [] cs).map (wordThen w)
      | '|' => (tokens [] cs).map fun ts => wordThen w (.op .or :: ts)
      | '^' => (tokens [] cs).map fun ts => wordThen w (.op .xor :: ts)
      | '&' => (tokens [] cs).map fun ts => wordThen w (.op .and :: ts)
      | '+' => (tokens [] cs).map fun ts => wordThen w (.op .add :: ts)
      | '-' => (tokens [] cs).map fun ts => wordThen w (.op .sub :: ts)
      | '*' => (tokens [] cs).map fun ts => wordThen w (.op .mul :: ts)
      | '%' => (tokens [] cs).map fun ts => wordThen w (.op .mod :: ts)
      | '~' => (tokens [] cs).map fun ts => wordThen w (.tilde :: ts)
      | ',' => (tokens [] cs).map fun ts => wordThen w (.comma :: ts)
      | '(' => (tokens [] cs).map fun ts => wordThen w (.openRound :: ts)
      | ')' => (tokens [] cs).map fun ts => wordThen w (.closeRound :: ts)
      | '[' => (tokens [] cs).map fun ts => wordThen w (.openSquare :: ts)
      | ']' => (tokens [] cs).map fun ts => wordThen w (.closeSquare :: ts)
      | _ => .error .operands

/-! ## Words -/

def digitValue (c : Char) : Option Nat :=
  if c.isDigit then some (c.toNat - '0'.toNat)
  else if 'a' ≤ c ∧ c ≤ 'f' then some (c.toNat - 'a'.toNat + 10)
  else if 'A' ≤ c ∧ c ≤ 'F' then some (c.toNat - 'A'.toNat + 10)
  else none

/-- A number in a base, its digits behind the value `acc`. -/
def digitsValue (base : Nat) (acc : Nat) : List Char → Option Nat
  | [] => some acc
  | c :: cs =>
    match digitValue c with
    | some d => if d < base then digitsValue base (acc * base + d) cs else none
    | none => none

/-- A decimal number, or a hexadecimal one with the prefix 0x (R102). -/
def numberOf : List Char → Option Nat
  | [] => none
  | '0' :: 'x' :: [] => none
  | '0' :: 'x' :: cs => digitsValue 16 0 cs
  | cs => digitsValue 10 0 cs

/-- r0 to r15 (R101), in lower case alone: DESIGN CHOICE, the spec says only that the guide's examples are lower
case (log 23). -/
def registerOf : List Char → Option RegNum
  | ['r', '0'] => some 0
  | ['r', '1'] => some 1
  | ['r', '2'] => some 2
  | ['r', '3'] => some 3
  | ['r', '4'] => some 4
  | ['r', '5'] => some 5
  | ['r', '6'] => some 6
  | ['r', '7'] => some 7
  | ['r', '8'] => some 8
  | ['r', '9'] => some 9
  | ['r', '1', '0'] => some 10
  | ['r', '1', '1'] => some 11
  | ['r', '1', '2'] => some 12
  | ['r', '1', '3'] => some 13
  | ['r', '1', '4'] => some 14
  | ['r', '1', '5'] => some 15
  | _ => none

/-- A word in an expression: a number if it begins with a digit, no register, else a name. -/
def wordExpr (w : List Char) : Option Expr :=
  match w with
  | [] => none
  | c :: _ =>
    if c.isDigit then (numberOf w).map fun n => .num n
    else if (registerOf w).isSome then none
    else some (.name (String.ofList w))

/-! ## Reading an expression -/

/-- How tightly an operator binds in Python. -/
def ExprOp.level : ExprOp → Nat
  | .or => 1
  | .xor => 2
  | .and => 3
  | .shl => 4
  | .shr => 4
  | .add => 5
  | .sub => 5
  | .mul => 6
  | .floorDiv => 6
  | .mod => 6
  | .pow => 8

/-- Reads an expression of operators that bind as `level` or tighter, and answers the tokens behind it. With a
left part it goes on behind that part. Levels 1 to 6 associate to the left, level 7 is a sign, and level 8 is a
power, which binds tighter than a sign before it and looser than one behind it. -/
def readExpr : (fuel : Nat) → Option Expr → (level : Nat) → List Token → Option (Expr × List Token)
  | 0, _, _, _ => none
  | fuel + 1, some l, level, ts =>
    match ts with
    | .op o :: rest =>
      if o.level = level then
        match readExpr fuel none (level + 1) rest with
        | some (r, rest') => readExpr fuel (some (.bin o l r)) level rest'
        | none => none
      else some (l, ts)
    | _ => some (l, ts)
  | fuel + 1, none, level, ts =>
    if level < 7 then
      match readExpr fuel none (level + 1) ts with
      | some (l, rest) => readExpr fuel (some l) level rest
      | none => none
    else
      match ts with
      | .op .sub :: rest => (readExpr fuel none 7 rest).map fun p => (.neg p.1, p.2)
      | .op .add :: rest => readExpr fuel none 7 rest
      | .tilde :: rest => (readExpr fuel none 7 rest).map fun p => (.inv p.1, p.2)
      | .openRound :: rest =>
        match readExpr fuel none 1 rest with
        | some (e, .closeRound :: rest') => readExpr fuel (some e) 8 rest'
        | _ => none
      | .word w :: rest =>
        match wordExpr w with
        | some e => readExpr fuel (some e) 8 rest
        | none => none
      | _ => none

/-- Enough fuel for any expression of the tokens: eight calls a token and eight more. -/
def exprFuel (ts : List Token) : Nat := 8 * ts.length + 8

/-- The value of tokens that are one expression. -/
def exprValue (env : Names) (ts : List Token) : Except TextError Int :=
  match readExpr (exprFuel ts) none 1 ts with
  | some (e, []) => e.eval env
  | _ => .error .operands

/-! ## Operands (R104, R106, R108) -/

inductive Operand where
  | reg (r : RegNum)
  | num (v : Int)
  | mem (m : MemOperand)
  deriving DecidableEq, Repr

/-- Inside the brackets: a base register, alone or with a signed number. The number is a product or tighter,
so that what follows the sign is one term. -/
def readBracket (env : Names) : List Token → Except TextError Operand
  | [.word w, .closeSquare] =>
    match registerOf w with
    | some rs => .ok (.mem (.bare rs))
    | none => .error .operands
  | .word w :: .op .sub :: ts =>
    match registerOf w, readExpr (exprFuel ts) none 6 ts with
    | some rs, some (e, [.closeSquare]) => (e.eval env).map fun k => .mem (.minus rs k)
    | _, _ => .error .operands
  | .word w :: .op .add :: ts =>
    match registerOf w, readExpr (exprFuel ts) none 6 ts with
    | some rs, some (e, [.closeSquare]) => (e.eval env).map fun k => .mem (.plus rs k)
    | _, _ => .error .operands
  | _ => .error .operands

def readOperand (env : Names) : List Token → Except TextError Operand
  | .openSquare :: ts => readBracket env ts
  | [.word w] =>
    match registerOf w with
    | some r => .ok (.reg r)
    | none => (exprValue env [.word w]).map .num
  | ts => (exprValue env ts).map .num

/-- The groups of tokens between the commas. -/
def commaGroups : List Token → List (List Token)
  | [] => [[]]
  | .comma :: ts => [] :: commaGroups ts
  | t :: ts =>
    match commaGroups ts with
    | [] => [[t]]
    | g :: gs => (t :: g) :: gs

/-- The operands' tokens; no operand for no tokens. -/
def splitCommas (ts : List Token) : List (List Token) := if ts.isEmpty then [] else commaGroups ts

def readOperands (env : Names) : List (List Token) → Except TextError (List Operand)
  | [] => .ok []
  | g :: gs =>
    match readOperand env g, readOperands env gs with
    | .ok o, .ok os => .ok (o :: os)
    | .error e, _ => .error e
    | .ok _, .error e => .error e

/-! ## Mnemonics (R82, R103, R107, R110) -/

/-- A mnemonic, with the operands it takes. -/
inductive Mnemonic where
  | subi | subic
  | alu (op : AluOp)
  | lw (suffix : Suffix)
  | sw (suffix : Suffix)
  | jump (c : Cond)
  | br | brl | i12 | dec | decc | inc | incc | neg | negc
  deriving DecidableEq, Repr

/-- The mnemonics, in lower case alone: DESIGN CHOICE, the spec says only that the guide's examples are lower
case (log 23). -/
def mnemonicOf (m : String) : Option Mnemonic :=
  match m with
  | "subi" => some .subi
  | "subic" => some .subic
  | "sub" => some (.alu .sub)
  | "subc" => some (.alu .subc)
  | "sbb" => some (.alu .sbb)
  | "sbbc" => some (.alu .sbbc)
  | "and" => some (.alu .and)
  | "andc" => some (.alu .andc)
  | "nand" => some (.alu .nand)
  | "nandc" => some (.alu .nandc)
  | "or" => some (.alu .or)
  | "orc" => some (.alu .orc)
  | "xor" => some (.alu .xor)
  | "xorc" => some (.alu .xorc)
  | "mull" => some (.alu .mull)
  | "mulh" => some (.alu .mulh)
  | "cmp" => some (.alu .cmp)
  | "lw" => some (.lw .absent)
  | "lw.d" => some (.lw .d)
  | "lw.s" => some (.lw .s)
  | "lw.sf" => some (.lw .sf)
  | "sw" => some (.sw .absent)
  | "sw.d" => some (.sw .d)
  | "sw.s" => some (.sw .s)
  | "sw.sf" => some (.sw .sf)
  | "jnz" => some (.jump .jnz)
  | "jz" => some (.jump .jz)
  | "jl" => some (.jump .jl)
  | "jg" => some (.jump .jg)
  | "jb" => some (.jump .jb)
  | "jbe" => some (.jump .jbe)
  | "ja" => some (.jump .ja)
  | "jae" => some (.jump .jae)
  | "br" => some .br
  | "brl" => some .brl
  | "i12" => some .i12
  | "dec" => some .dec
  | "decc" => some .decc
  | "inc" => some .inc
  | "incc" => some .incc
  | "neg" => some .neg
  | "negc" => some .negc
  | _ => none

/-- The statement of a mnemonic and its operands (R104, R106, R108). -/
def Mnemonic.stmt : Mnemonic → List Operand → Except TextError Stmt
  | .subi, [.reg rd, .reg rs, .num v] => .ok (.subi rd rs v)
  | .subic, [.reg rd, .reg rs, .num v] => .ok (.subic rd rs v)
  | .alu op, [.reg rd, .reg rs] => .ok (.alu op rd (.reg rs))
  | .alu op, [.reg rd, .num v] => .ok (.alu op rd (.num v))
  | .lw x, [.reg rd, .mem m] => .ok (.lw x rd m)
  | .lw x, [.reg rd, .reg rs, .num v] => .ok (.lw x rd (.plain rs v))
  | .sw x, [.reg rd, .mem m] => .ok (.sw x rd m)
  | .sw x, [.reg rd, .reg rs, .num v] => .ok (.sw x rd (.plain rs v))
  | .jump c, [.num v] => .ok (.jump c v)
  | .br, [.reg rs] => .ok (.br (.reg rs))
  | .br, [.num v] => .ok (.br (.num v))
  | .brl, [.reg rd, .reg rs] => .ok (.brl rd (.reg rs))
  | .brl, [.reg rd, .num v] => .ok (.brl rd (.num v))
  | .i12, [.num v] => .ok (.i12 v)
  | .dec, [.reg rd] => .ok (.dec rd)
  | .decc, [.reg rd] => .ok (.decc rd)
  | .inc, [.reg rd] => .ok (.inc rd)
  | .incc, [.reg rd] => .ok (.incc rd)
  | .neg, [.reg rd] => .ok (.neg rd)
  | .negc, [.reg rd] => .ok (.negc rd)
  | _, _ => .error .operands

/-! ## Lines (R101) -/

def isBlank (c : Char) : Bool := c == ' ' || c == '\t'

/-- The characters up to the first blank, and those from there on. -/
def cutWord : List Char → List Char × List Char
  | [] => ([], [])
  | c :: cs => if isBlank c then ([], c :: cs) else (c :: (cutWord cs).1, (cutWord cs).2)

def skipBlanks : List Char → List Char
  | [] => []
  | c :: cs => if isBlank c then skipBlanks cs else c :: cs

/-- The statement of a line: a mnemonic, then its operands separated by commas. -/
def readLine (env : Names) (line : String) : Except TextError Stmt :=
  let cut := cutWord (skipBlanks line.toList)
  if cut.1.isEmpty then .error .noMnemonic
  else
    match mnemonicOf (String.ofList cut.1), tokens [] cut.2 with
    | none, _ => .error (.unknownMnemonic (String.ofList cut.1))
    | some _, .error e => .error e
    | some m, .ok ts =>
      match readOperands env (splitCommas ts) with
      | .ok os => m.stmt os
      | .error e => .error e

/-- The statements of a source text, one a line. -/
def readLines (env : Names) : List String → Except TextError (List Stmt)
  | [] => .ok []
  | l :: ls =>
    match readLine env l, readLines env ls with
    | .ok s, .ok ss => .ok (s :: ss)
    | .error e, _ => .error e
    | .ok _, .error e => .error e

end Sys2Proof.Machine
end

