-- ==== Sys2Proof/Machine/Convention.lean ====
section
/-! DEFINITION. The software convention of R22, which the hardware does not enforce (R21): nothing in the
step reads this file. -/

namespace Sys2Proof.Machine

/-- The guide's column "Free to modify?" (R22). -/
inductive Modify where
  /-- Y: a routine may overwrite it. -/
  | free
  /-- B: back up before modifying, restore afterwards. -/
  | backup
  /-- N: a routine does not change it. -/
  | never
  deriving DecidableEq, Repr

/-- The guide's column "Usage" (R22). -/
inductive Usage where
  | parameter (n : Nat)
  | general
  | stackSegment
  | zeroRegister
  | stackPointer
  | linkRegister
  deriving DecidableEq, Repr

def conventionModify (r : RegNum) : Modify :=
  if r.val ≤ 3 then .free else if r.val ≤ 11 then .backup else .never

/-- r2 is parameter 2 (C4). -/
def conventionUsage (r : RegNum) : Usage :=
  if r.val ≤ 3 then .parameter r.val
  else if r.val ≤ 11 then .general
  else if r.val = 12 then .stackSegment
  else if r.val = 13 then .zeroRegister
  else if r.val = 14 then .stackPointer
  else .linkRegister

end Sys2Proof.Machine
end

