-- ==== Sys2Proof/Machine/Timing.lean ====
section
/-! DEFINITION. The cycle counts the guide gives (R262), as a table. "They are timing only: no rule of this
spec depends on them and a model has no clock": nothing in the step reads this file (log 15). -/

namespace Sys2Proof.Machine

/-- The cycles R262 states for an instruction; `none` where no count is stated (R173, R208, N30). For a
conditional jump it is the count of a taken one: of an untaken one the sources say nothing (R194). -/
def statedCycles : Instr → Option Nat
  | .jnz _ | .jz _ | .jl _ | .jg _ | .jb _ | .jbe _ | .ja _ | .jae _ => some 3
  | .brRr _ | .brlRr _ _ | .brRi _ | .brlRi _ _ => some 3
  | .i12 _ => some 1
  | _ => none

end Sys2Proof.Machine
end

