-- ==== Sys2Proof/Tests/Slice0.lean ====
section
/-! SUPPORT. Tests of one step each, with expected values from 95_test_vectors.md (the few marked "by hand" are
computed from the rule named), and for every statement with hypotheses a state that meets them. -/

namespace Sys2Proof.Tests

open Sys2Proof.Machine

/-! ## Helpers -/

/-- The outcome is a next state that meets `p`. -/
def nextIs (o : Result) (p : State → Bool) : Bool :=
  match o with
  | .next t => p t
  | _ => false

/-- One step from `s` with the word `w` at pc. -/
def stepOn (w : Nat) (s : State) (p : State → Bool) : Bool := nextIs (step (s.withFetchWord 16 w)) p

/-- One step from `s` with the word `w` at pc stops with the fault `f`. -/
def faults (w : Nat) (s : State) (f : Fault) : Bool :=
  match step (s.withFetchWord 16 w) with
  | .fault g => decide (g = f)
  | _ => false

/-- One step from `s` with the word `w` at pc is refused with `r`: no next state and no fault. -/
def refuses (w : Nat) (s : State) (r : Refusal) : Bool :=
  match step (s.withFetchWord 16 w) with
  | .refused q => decide (q = r)
  | _ => false

/-- The reset state with two registers and the flags ZF NF BF set. -/
def regs2 (r : RegNum) (v : Word) (r' : RegNum) (v' : Word) (z n b : Bool) : State :=
  { (State.reset.setReg r v).setReg r' v' with zf := z, nf := n, bf := b }

/-- The flags ZF NF BF. -/
def flagsAre (t : State) (z n b : Bool) : Bool := t.zf == z && t.nf == n && t.bf == b

/-- What a test of an instruction without flags checks: the destination, and the flags as they were. -/
def gives (r : RegNum) (v : Word) (z n b : Bool) (t : State) : Bool :=
  decide (t.reg r = v) && flagsAre t z n b && decide (t.pc = 1#16) && decide (t.pfx = none)

/-- The parameters with the 16 words from 0x100 a device and those from 0x200 absent. -/
def mapped : State :=
  { State.reset with cfg := { Config.atReset with memMap := [⟨0x100, 16, .device⟩, ⟨0x200, 16, .absent⟩] } }

/-- A narrow machine: PCW = 10, 16 words of program, DSW = SSW = 0, in the middle of its last page. -/
def narrow : State :=
  { State.reset with cfg := { Config.atReset with pcw := 10, imemWords := 16, dsw := 0, ssw := 0 } }

/-- The reset state with a prefix pending. -/
def latched (p : BitVec 12) : State := { State.reset with pfx := some p }

/-! ## Well-formedness: each check refuses an ill-formed term (R98) -/

theorem test_wellFormed_refuses_dec : (Instr.dec 0).wellFormed = false := by decide
theorem test_wellFormed_refuses_decc : (Instr.decc 0).wellFormed = false := by decide
theorem test_wellFormed_refuses_inc : (Instr.inc 0).wellFormed = false := by decide
theorem test_wellFormed_refuses_incc : (Instr.incc 0).wellFormed = false := by decide
theorem test_wellFormed_refuses_neg : (Instr.neg 0).wellFormed = false := by decide
theorem test_wellFormed_refuses_negc : (Instr.negc 0).wellFormed = false := by decide
theorem test_wellFormed_takes_subi : (Instr.subi 0 0 1#4).wellFormed = true := by decide

/-! ## Decoding: words written out field by field from R91 to R95 -/

theorem test_decode_rri :
    decode 0b0010_0101_0110_0000#16 = .ok (.subi 5 6 0#4) ∧
    decode 0b0011_0001_0010_0111#16 = .ok (.subic 1 2 7#4) ∧
    decode 0b0100_0000_0001_0011#16 = .ok (.lwD 0 1 3#4) ∧
    decode 0b0101_0000_0001_1110#16 = .ok (.lwS 0 1 0xE#4) ∧
    decode 0b0110_0011_1101_0001#16 = .ok (.swD 3 13 1#4) ∧
    decode 0b0111_0010_1110_0000#16 = .ok (.swS 2 14 0#4) := by decide

theorem test_decode_rr_subtract :
    decode 0b0000_0000_0010_0000#16 = .ok (.subRr 0 2) ∧
    decode 0b0000_0001_0010_0001#16 = .ok (.subcRr 1 2) ∧
    decode 0b0000_0001_0011_0010#16 = .ok (.sbbRr 1 3) ∧
    decode 0b0000_0001_0011_0011#16 = .ok (.sbbcRr 1 3) ∧
    decode 0b0000_0011_1111_1110#16 = .ok (.cmpRr 3 15) := by decide

theorem test_decode_rr_bitwise :
    decode 0b0000_0001_0010_0100#16 = .ok (.andRr 1 2) ∧
    decode 0b0000_0001_0010_0101#16 = .ok (.andcRr 1 2) ∧
    decode 0b0000_0001_0010_0110#16 = .ok (.nandRr 1 2) ∧
    decode 0b0000_0001_0010_0111#16 = .ok (.nandcRr 1 2) ∧
    decode 0b0000_0001_0010_1000#16 = .ok (.orRr 1 2) ∧
    decode 0b0000_0001_0010_1001#16 = .ok (.orcRr 1 2) ∧
    decode 0b0000_0001_0010_1010#16 = .ok (.xorRr 1 2) ∧
    decode 0b0000_0001_0010_1011#16 = .ok (.xorcRr 1 2) := by decide

theorem test_decode_rr_multiply :
    decode 0b0000_0000_0001_1100#16 = .ok (.mullRr 0 1) ∧
    decode 0b0000_0010_0001_1101#16 = .ok (.mulhRr 2 1) := by decide

theorem test_decode_ri_subtract :
    decode 0b0001_0000_0000_0001#16 = .ok (.subRi 0 1#4) ∧
    decode 0b0001_0001_0001_0010#16 = .ok (.subcRi 1 2#4) ∧
    decode 0b0001_0001_0010_0111#16 = .ok (.sbbRi 1 7#4) ∧
    decode 0b0001_0001_0011_0010#16 = .ok (.sbbcRi 1 2#4) ∧
    decode 0b0001_0010_1110_0010#16 = .ok (.cmpRi 2 2#4) := by decide

theorem test_decode_ri_bitwise :
    decode 0b0001_0001_0100_1100#16 = .ok (.andRi 1 0xC#4) ∧
    decode 0b0001_0001_0101_0001#16 = .ok (.andcRi 1 1#4) ∧
    decode 0b0001_0001_0110_1111#16 = .ok (.nandRi 1 0xF#4) ∧
    decode 0b0001_0001_0111_1111#16 = .ok (.nandcRi 1 0xF#4) ∧
    decode 0b0001_0001_1000_0011#16 = .ok (.orRi 1 3#4) ∧
    decode 0b0001_0001_1001_0000#16 = .ok (.orcRi 1 0#4) ∧
    decode 0b0001_0001_1010_1111#16 = .ok (.xorRi 1 0xF#4) ∧
    decode 0b0001_0001_1011_0001#16 = .ok (.xorcRi 1 1#4) := by decide

theorem test_decode_ri_multiply :
    decode 0b0001_0000_1100_0100#16 = .ok (.mullRi 0 4#4) ∧
    decode 0b0001_0000_1101_0100#16 = .ok (.mulhRi 0 4#4) := by decide

theorem test_decode_bx :
    decode 0b100_000_0000101010#16 = .ok (.jnz 0x2A#10) ∧
    decode 0b100_001_0000101010#16 = .ok (.jz 0x2A#10) ∧
    decode 0b100_010_0000101010#16 = .ok (.jl 0x2A#10) ∧
    decode 0b100_011_0000101010#16 = .ok (.jg 0x2A#10) ∧
    decode 0b100_100_0000101010#16 = .ok (.jb 0x2A#10) ∧
    decode 0b100_101_0000101010#16 = .ok (.jbe 0x2A#10) ∧
    decode 0b100_110_0000101010#16 = .ok (.ja 0x2A#10) ∧
    decode 0b100_111_1111111111#16 = .ok (.jae 0x3FF#10) := by decide

theorem test_decode_branches :
    decode 0b1010_0000_1111_0000#16 = .ok (.brRr 15) ∧
    decode 0b1010_1111_0100_0001#16 = .ok (.brlRr 15 4) ∧
    decode 0b1011_0000_0000_0101#16 = .ok (.brRi 5#4) ∧
    decode 0b1011_1111_0001_0010#16 = .ok (.brlRi 15 2#4) := by decide

theorem test_decode_i12 : decode 0b1111_0001_0010_0011#16 = .ok (.i12 0x123#12) := by decide

/-- The word of a short-hand is the word of its expansion (R110). -/
theorem test_decode_shorthands :
    decode (encode (.dec 0)) = .ok (.subi 0 0 1#4) ∧ encode (.dec 0) = 0x2001#16 ∧
    decode (encode (.decc 0)) = .ok (.subic 0 0 1#4) ∧ encode (.decc 0) = 0x3001#16 ∧
    decode (encode (.inc 3)) = .ok (.subi 3 3 0xF#4) ∧ encode (.inc 3) = 0x233F#16 ∧
    decode (encode (.incc 4)) = .ok (.subic 4 4 0xF#4) ∧ encode (.incc 4) = 0x344F#16 ∧
    decode (encode (.neg 0)) = .ok (.subRi 0 0#4) ∧ encode (.neg 0) = 0x1000#16 ∧
    decode (encode (.negc 2)) = .ok (.subcRi 2 0#4) ∧ encode (.negc 2) = 0x1210#16 := by decide

/-- R96, one word a reason. -/
theorem test_decode_illegal :
    decode 0xC000#16 = .error .reservedMajor ∧ decode 0x000F#16 = .error .reservedRrFn ∧
    decode 0x10F0#16 = .error .reservedRiFn ∧ decode 0xA100#16 = .error .nonZeroBrRd ∧
    decode 0xA002#16 = .error .reservedBranchFn := by decide

/-! ## Subtraction (95_test_vectors.md sections 2.1 and 2.2) -/

theorem test_subi_wraps : stepOn 0x2121 (regs2 2 0 1 7 true true true) (gives 1 0xFFFF#16 true true true) := by
  decide
theorem test_subi_lowest_immediate : stepOn 0x2128 (regs2 2 0 1 7 false false false)
    (gives 1 8#16 false false false) := by decide
theorem test_subic_keeps_zf : stepOn 0x3127 (regs2 2 5 1 0 true false false)
    (gives 1 0xFFFE#16 true true true) := by decide
theorem test_subic_zero_result : stepOn 0x3121 (regs2 2 1 1 7 false true true)
    (gives 1 0#16 false false false) := by decide
theorem test_dec : stepOn 0x2001 (regs2 0 0 1 0 false false false) (gives 0 0xFFFF#16 false false false) := by
  decide
theorem test_exec_dec : nextIs (exec (.dec 0) (regs2 0 0 1 0 false false false))
    (gives 0 0xFFFF#16 false false false) := by decide
theorem test_decc : stepOn 0x3001 (regs2 0 0 1 0 false false false) (gives 0 0xFFFF#16 false true true) := by
  decide
theorem test_exec_decc : nextIs (exec (.decc 0) (regs2 0 1 1 0 false true true))
    (gives 0 0#16 false false false) := by decide
theorem test_exec_inc : nextIs (exec (.inc 3) (regs2 3 0xFFFF#16 1 0 false false false))
    (gives 3 0#16 false false false) := by decide
theorem test_incc : stepOn 0x344F (regs2 4 0x7FFF#16 1 0 false false false)
    (gives 4 0x8000#16 false true true) := by decide
theorem test_exec_incc : nextIs (exec (.incc 4) (regs2 4 0xFFFF#16 1 0 false true true))
    (gives 4 0#16 false false false) := by decide
theorem test_sub_rr : stepOn 0x0020 (regs2 0 0xA#16 2 3 false false true) (gives 0 7#16 false false true) := by
  decide
theorem test_sub_ri_reverses : stepOn 0x1001 (regs2 0 5 1 0 false false false)
    (gives 0 0xFFFC#16 false false false) := by decide
theorem test_sub_ri_prefixed : stepOn 0x1004 ((latched 0x123#12).setReg 0 0x234#16)
    (gives 0 0x1000#16 false false false) := by decide
theorem test_subc_rr : stepOn 0x0121 (regs2 1 0x8000#16 2 1 false true true)
    (gives 1 0x7FFF#16 false false false) := by decide
theorem test_subc_ri : stepOn 0x1112 (regs2 1 5 2 0 false false false) (gives 1 0xFFFD#16 false true true) := by
  decide
theorem test_sbb_rr : stepOn 0x0132 (regs2 1 5 3 3 false false true) (gives 1 1#16 false false true) := by decide
theorem test_sbb_ri : stepOn 0x1127 (regs2 1 2 3 3 false false true) (gives 1 4#16 false false true) := by decide
theorem test_sbbc_rr : stepOn 0x0133 (regs2 1 0 3 0xFFFF#16 false false true)
    (gives 1 0#16 false false true) := by decide
/-- By hand from R149: 2 - 5 - 1 = -4, a borrow. -/
theorem test_sbbc_ri : stepOn 0x1132 (regs2 1 5 3 0 false false true) (gives 1 0xFFFC#16 false true true) := by
  decide
theorem test_exec_neg : nextIs (exec (.neg 0) (regs2 0 0x8000#16 1 0 false false false))
    (gives 0 0x8000#16 false false false) := by decide
theorem test_exec_negc : nextIs (exec (.negc 2) (regs2 2 2 1 0 false false false))
    (gives 2 0xFFFE#16 false true true) := by decide

/-! ## Compare (section 2.3) -/

theorem test_cmp_rr_wide : stepOn 0x03FE (regs2 3 0x8000#16 15 1 true true true)
    (gives 3 0x8000#16 false false false) := by decide
theorem test_cmp_rr_equal : stepOn 0x03FE (regs2 3 9 15 9 false true true) (gives 3 9#16 true false false) := by
  decide
theorem test_cmp_ri_reverses : stepOn 0x12E2 (regs2 2 5 1 0 true false false)
    (gives 2 5#16 false true true) := by decide

/-! ## Bitwise (section 2.4) -/

/-- By hand from R153. -/
theorem test_and_rr : stepOn 0x0124 (regs2 1 0xFF#16 2 0xF0F#16 true true true)
    (gives 1 0xF#16 true true true) := by decide
theorem test_and_ri : stepOn 0x114C (regs2 1 0x1237#16 2 0 false true false)
    (gives 1 0x1234#16 false true false) := by decide
theorem test_andc_rr : stepOn 0x0125 (regs2 1 0xFF#16 2 0xF0#16 true false false)
    (gives 1 0xF0#16 false false false) := by decide
theorem test_andc_ri : stepOn 0x1151 (regs2 1 4 2 0 false true true) (gives 1 0#16 true true true) := by decide
theorem test_nand_rr : stepOn 0x0126 (regs2 1 0xFF#16 2 0xF0F#16 false false false)
    (gives 1 0xFFF0#16 false false false) := by decide
/-- By hand from R155: not (0xFFFF and 0x00FF). -/
theorem test_nand_ri : stepOn 0x116F (regs2 1 0xFF#16 2 0 false false false)
    (gives 1 0xFF00#16 false false false) := by decide
/-- By hand from R156. -/
theorem test_nandc_rr : stepOn 0x0127 (regs2 1 0xFFFF#16 2 0xFFFF#16 false true true)
    (gives 1 0#16 true true true) := by decide
theorem test_nandc_ri : stepOn 0x117F (regs2 1 0xFFFF#16 2 0 false false false)
    (gives 1 0#16 true false false) := by decide
/-- By hand from R157. -/
theorem test_or_rr : stepOn 0x0128 (regs2 1 0xF0#16 2 0x0F0F#16 true true true)
    (gives 1 0x0FFF#16 true true true) := by decide
theorem test_or_ri : stepOn 0x1183 (regs2 1 0x10#16 2 0 false false false)
    (gives 1 0x13#16 false false false) := by decide
theorem test_orc_rr : stepOn 0x0009 (regs2 0 0x8000#16 2 0 true false false)
    (gives 0 0x8000#16 false false false) := by decide
/-- By hand from R158: 0 or 0 is zero. -/
theorem test_orc_ri : stepOn 0x1190 (regs2 1 0 2 7 false true true) (gives 1 0#16 true true true) := by decide
theorem test_xor_rr_writes_r13 : stepOn 0x0DDA (regs2 13 0xBEEF#16 2 0 false true false)
    (gives 13 0#16 false true false) := by decide
theorem test_xor_ri : stepOn 0x11AF (regs2 1 0xFF#16 2 0 false false false)
    (gives 1 0xFF00#16 false false false) := by decide
theorem test_xorc_rr : stepOn 0x012B (regs2 1 0x1234#16 2 0x1234#16 false false false)
    (gives 1 0#16 true false false) := by decide
/-- By hand from R160. -/
theorem test_xorc_ri : stepOn 0x11B1 (regs2 1 0x10#16 2 0 true true true)
    (gives 1 0x11#16 false true true) := by decide

/-! ## Multiply (section 2.5) -/

theorem test_mull_rr : stepOn 0x001C (regs2 0 0xFFFF#16 1 0xFFFF#16 true true true)
    (gives 0 1#16 true true true) := by decide
theorem test_mull_ri : stepOn 0x10CF (regs2 0 3 1 0 false false false)
    (gives 0 0xFFFD#16 false false false) := by decide
theorem test_mulh_rr : stepOn 0x001D (regs2 0 0xFFFF#16 1 0xFFFF#16 true true true)
    (gives 0 0xFFFE#16 true true true) := by decide
theorem test_mulh_ri_unsigned : stepOn 0x10DF (regs2 0 3 1 0 false false false)
    (gives 0 2#16 false false false) := by decide

/-! ## Conditional jumps: the truth table of section 2.6 at pc = 5, flags 000 to 111 -/

/-- pc = 5, JCOND and the flags as given. -/
def jumpState (j : JumpTable) (z n b : Bool) : State :=
  { State.reset with cfg := { Config.atReset with jcond := j }, pc := 5#16, zf := z, nf := n, bf := b }

/-- One place of a jump's row: the step goes to 0x2A, or to 6. -/
def taken (j : JumpTable) (w : Nat) (z n b : Bool) : Option Bool :=
  if stepOn w (jumpState j z n b) fun t => decide (t.pc = 0x2A#16) then some true
  else if stepOn w (jumpState j z n b) fun t => decide (t.pc = 6#16) then some false
  else none

/-- The row of a jump word. -/
def jumpRow (j : JumpTable) (w : Nat) : List (Option Bool) :=
  [taken j w false false false, taken j w false false true, taken j w false true false,
   taken j w false true true, taken j w true false false, taken j w true false true,
   taken j w true true false, taken j w true true true]

theorem test_jnz : jumpRow .literal 0x802A =
    [some true, some true, some true, some true, some false, some false, some false, some false] := by decide
theorem test_jz : jumpRow .literal 0x842A =
    [some false, some false, some false, some false, some true, some true, some true, some true] := by decide
theorem test_jl : jumpRow .literal 0x882A =
    [some false, some false, some true, some true, some false, some false, some true, some true] := by decide
theorem test_jg : jumpRow .literal 0x8C2A =
    [some true, some true, some false, some false, some true, some true, some false, some false] := by decide
theorem test_jb : jumpRow .literal 0x902A =
    [some false, some true, some false, some true, some false, some true, some false, some true] := by decide
theorem test_jbe : jumpRow .literal 0x942A =
    [some false, some false, some false, some false, some false, some true, some false, some true] := by decide
theorem test_jbe_alternative : jumpRow .alternative 0x942A =
    [some false, some true, some false, some true, some true, some true, some true, some true] := by decide
theorem test_ja : jumpRow .literal 0x982A =
    [some true, some false, some true, some false, some true, some false, some true, some false] := by decide
theorem test_jae : jumpRow .literal 0x9C2A =
    [some false, some false, some false, some false, some true, some false, some true, some false] := by decide
theorem test_jae_alternative : jumpRow .alternative 0x9C2A =
    [some true, some false, some true, some false, some true, some false, some true, some false] := by decide
theorem test_jump_not_taken : stepOn 0x802A { State.reset with pc := 5, zf := true }
    (fun t => decide (t.pc = 6#16)) := by decide
theorem test_jump_clears_upper_bits : stepOn 0x802A { State.reset with pc := 0x1234#16 }
    (fun t => decide (t.pc = 0x2A#16)) := by decide

/-! ## Branches (section 2.7) -/

theorem test_br_rr : stepOn 0xA0F0 { State.reset.setReg 15 0x42#16 with pc := 0x10#16 }
    (fun t => decide (t.pc = 0x42#16)) := by decide
theorem test_br_ri_prefixed : stepOn 0xB003 { latched 0x12#12 with pc := 0x11#16 }
    (fun t => decide (t.pc = 0x123#16) && decide (t.pfx = none)) := by decide
theorem test_br_ri_narrow : stepOn 0xB00F { narrow with pc := 2#16 } (fun t => decide (t.pc = 0x3FF#16)) := by
  decide
theorem test_brl_rr_same_register : stepOn 0xAFF1 { State.reset.setReg 15 0x200#16 with pc := 0x10#16 }
    (fun t => decide (t.pc = 0x200#16) && decide (t.reg 15 = 0x11#16)) := by decide
theorem test_brl_ri_at_top : stepOn 0xBF12 { State.reset with pc := 0xFFFF#16 }
    (fun t => decide (t.pc = 2#16) && decide (t.reg 15 = 0#16)) := by decide

/-! ## Loads and stores (section 2.8) -/

theorem test_lw_d : stepOn 0x4013
    { (State.reset.setReg 1 0x103#16).ramWrite 0x20100 0xBEEF#16 with ds := 2#16, ss := 9#16 }
    (fun t => decide (t.reg 0 = 0xBEEF#16)) := by decide
theorem test_lw_d_pointer_wraps : stepOn 0x4011
    { State.reset.ramWrite 0x2FFFF 0x7777#16 with ds := 2#16 } (fun t => decide (t.reg 0 = 0x7777#16)) := by decide
theorem test_lw_s : stepOn 0x501E
    { (State.reset.setReg 1 0xFFE#16).ramWrite 0x11000 0x1111#16 with ss := 1#16, ds := 9#16 }
    (fun t => decide (t.reg 0 = 0x1111#16)) := by decide
theorem test_lw_d_prefixed : stepOn 0x40D0 ((latched 0xFF0#12).ramWrite 0x100 0x3333#16)
    (fun t => decide (t.reg 0 = 0x3333#16) && decide (t.pfx = none)) := by decide
theorem test_sw_d_data_is_base : stepOn 0x6441 (State.reset.setReg 4 0x20#16)
    (fun t => decide (t.dmem = [(0x1F, 0x20#16)])) := by decide
theorem test_sw_d_prefixed : stepOn 0x63D0 { (latched 0xFE0#12).setReg 3 0xCAFE#16 with ds := 3#16 }
    (fun t => decide (t.dmem = [(0x30200, 0xCAFE#16)])) := by decide
theorem test_sw_s : stepOn 0x72E0
    { regs2 2 0x1234#16 14 0xFFF0#16 false false false with cfg := { Config.atReset with ssw := 4 }, ss := 1#16, ds := 9#16 }
    (fun t => decide (t.dmem = [(0x1FFF0, 0x1234#16)])) := by decide
/-- By hand from R229: a device takes the store as an event and RAM keeps its words. -/
theorem test_sw_d_device : stepOn 0x6120 ((mapped.setReg 1 7#16).setReg 2 0x10F#16)
    (fun t => decide (t.deviceStores = [⟨0x10F, 7#16⟩]) && decide (t.dmem = [])) := by decide
/-- By hand from R64 and R229: no next state and no fault at an absent address. -/
theorem test_lw_d_absent : refuses 0x4120 (mapped.setReg 2 0x200#16) (.stuck 0#16 0x200) := by decide

/-! ## The prefix and the model faults (section 2.9) -/

theorem test_i12 : stepOn 0xF123 { State.reset with pc := 7#16 }
    (fun t => decide (t.pfx = some 0x123#12) && decide (t.pc = 8#16)) := by decide
theorem test_i12_zero_is_not_no_prefix : stepOn 0x2128 ((latched 0#12).setReg 2 0x10#16)
    (fun t => decide (t.reg 1 = 8#16)) := by decide
theorem test_misuse_rr : faults 0x0020 (latched 1#12) (.prefixMisuse 0#16) := by decide
theorem test_misuse_bx : faults 0x8405 (latched 1#12) (.prefixMisuse 0#16) := by decide
theorem test_misuse_i12 : faults 0xF002 (latched 1#12) (.prefixMisuse 0#16) := by decide
theorem test_illegal_word : faults 0x000F State.reset (.illegalInstruction 0#16 0x000F#16) := by decide
theorem test_fetch_out_of_range : faults 0x0020 { narrow with pc := 16#16 } (.fetchOutOfRange 16#16) := by decide
/-- An illegal word with a prefix pending is reported as illegal, not as a misuse (R231's order). -/
theorem test_illegal_before_misuse : faults 0xC000 (latched 1#12) (.illegalInstruction 0#16 0xC000#16) := by decide

/-! ## The assembler (95_test_vectors.md section 1) -/

theorem test_assemble_examples :
    assembleProgram .specAssigned false
      [.alu .sub 0 (.reg 2), .subi 0 0 1, .dec 0, .alu .sub 0 (.num 1), .i12 0x123, .alu .sub 0 (.num 4)] =
      .ok [0x0020#16, 0x2001#16, 0x2001#16, 0x1001#16, 0xF123#16, 0x1004#16] ∧
    assembleProgram .specAssigned false
      [.lw .d 0 (.minus 1 3), .lw .d 0 (.plain 1 3), .neg 0, .alu .and 1 (.num (-4)), .alu .cmp 2 (.num 2)] =
      .ok [0x4013#16, 0x4013#16, 0x1000#16, 0x114C#16, 0x12E2#16] ∧
    assembleProgram .specAssigned false [.alu .cmp 3 (.reg 15), .incc 4, .subi 5 6 0, .alu .mull 0 (.num 4)] =
      .ok [0x03FE#16, 0x344F#16, 0x2560#16, 0x10C4#16] := by decide

/-- R105: 15 assembles after an `i12` line only. -/
theorem test_assemble_range : assembleProgram .specAssigned false [.subi 1 2 15] = .error (.immediateRange 15) := by decide

/-- The guide's lines (95_test_vectors.md section 1), read from their text. -/
theorem test_read_examples :
    readLine [] "sub r0, r2" = .ok (.alu .sub 0 (.reg 2)) ∧ readLine [] "subi r0, r0, 1" = .ok (.subi 0 0 1) ∧
    readLine [] "i12 0x123" = .ok (.i12 0x123) ∧ readLine [("somewhere", 42)] "jnz somewhere" = .ok (.jump .jnz 42) ∧
    readLine [] "lw.d r0, [r1-3]" = .ok (.lw .d 0 (.minus 1 3)) ∧
    readLine [] "lw.d r0, r1, 3" = .ok (.lw .d 0 (.plain 1 3)) ∧ readLine [] "neg r0" = .ok (.neg 0) ∧
    readLine [] "and r1, -4" = .ok (.alu .and 1 (.num (-4))) ∧ readLine [] "cmp r3, r15" = .ok (.alu .cmp 3 (.reg 15)) := by
  decide

/-- By hand from R102: the operators bind as in Python, and a label may stand in an expression. -/
theorem test_read_expressions :
    readLine [] "i12 (0xEDCC >> 4) & 0xFFF" = .ok (.i12 0xEDC) ∧ readLine [] "br -2**2+~0x1*3" = .ok (.br (.num (-10))) ∧
    readLine [("top", 8)] "jz top + 2" = .ok (.jump .jz 10) ∧
    readLine [] "sw.sf r2, [r14+2*2]" = .ok (.sw .sf 2 (.plus 14 4)) ∧
    readLine [] "sub r0," = .error .operands ∧ readLine [] "mullc r0, r1" = .error (.unknownMnemonic "mullc") := by
  decide

/-- The rows of R22 for r2, r4, r12 and r13, and the counts of R262. -/
theorem test_convention_and_cycles :
    conventionUsage 2 = .parameter 2 ∧ conventionModify 3 = .free ∧ conventionModify 4 = .backup ∧
    conventionUsage 12 = .stackSegment ∧ conventionModify 13 = .never ∧ conventionUsage 15 = .linkRegister ∧
    statedCycles (.brRr 15) = some 3 ∧ statedCycles (.i12 0#12) = some 1 ∧ statedCycles (.lwD 0 1 0#4) = none := by
  decide

/-! ## Witnesses: for every statement with hypotheses, states and operands that meet them -/

/-- The hypotheses of a form, without and with a prefix. -/
abbrev FormMet (s u : State) : Prop :=
  s.cfg.wf = true ∧ s.pfx = none ∧ u.cfg.wf = true ∧ u.pfx ≠ none

/-- The narrow machine with a prefix pending. -/
def narrowLatched : State := { narrow with pfx := some 0xFFF#12 }

/-- The outcome is a next state. -/
def isNext (o : Result) : Bool := nextIs o fun _ => true

theorem witness_DecodeOfEncode : (Instr.brRr 15).wellFormed = true ∧ (Instr.i12 0xFFF#12).wellFormed = true := by
  decide

theorem witness_EncodeOfDecode : decode 0xA0F0#16 = .ok (.brRr 15) ∧ decode 0xFFFF#16 = .ok (.i12 0xFFF#12) := by
  decide

/-- Each clause of R96 at the ends of its range, and the legal words beside them. -/
theorem witness_IllegalWords :
    [0xC000#16, 0xEFFF#16, 0x000F#16, 0x0FFF#16, 0x10F0#16, 0x1FFF#16, 0xA002#16, 0xAFFF#16, 0xA100#16, 0xAFF0#16,
      0xB020#16, 0xBFFF#16, 0xB100#16, 0xBF0F#16].all (fun w => (decode w).toOption.isNone) = true ∧
    [0xBF1F#16, 0xF000#16, 0x0FFE#16, 0x1FEF#16, 0xAFF1#16, 0xA0F0#16, 0xB00F#16, 0x9FFF#16].all
      (fun w => (decode w).toOption.isSome) = true := by decide

/-- A codec of two rows: major opcode 0 is `subi` and opcode F is `i12`, with the fields of `subi` turned round. -/
def twoRows : Codec :=
  .rows [⟨.subi, 0xF000#16, 0#16, bitsC, bitsB, bitsA⟩, ⟨.i12, 0xF000#16, 0xF000#16, [], [], bitsC ++ bitsB ++ bitsA⟩]

theorem witness_CodecRoundTrip :
    twoRows.wf = true ∧ (Instr.subi 1 2 3#4).wellFormed = true ∧ twoRows.encode (.subi 1 2 3#4) = some 0x0321#16 ∧
    twoRows.decode 0x0321#16 = .ok (.subi 1 2 3#4) ∧ twoRows.encode (.brRr 0) = none ∧
    twoRows.decode 0x1000#16 = .error .noRow ∧ Codec.specAssigned.wf = true := by decide

theorem witness_StepRunsTheDecodedInstruction :
    narrow.cfg.haltPc ≠ some narrow.pc ∧ narrow.pc.toNat < narrow.cfg.imemWords ∧
    narrow.cfg.codec.decode (Memory.read narrow.imem narrow.pc.toNat) = .ok (.subRr 0 0) ∧
    narrow.cfg.delaySlots = 0 := by decide

/-- A machine that halts at 3. -/
def halting : State := { State.reset with cfg := { Config.atReset with haltPc := some 3#16 }, pc := 3#16 }

/-- HALT_PC without and with a prefix; pc at IMEM_WORDS; an illegal word; a misuse; a word that runs. -/
theorem witness_StepChecksInOrder :
    (halting.cfg.haltPc = some halting.pc ∧ halting.pfx = none) ∧
    (let s := { halting with pfx := some 0#12 }; s.cfg.haltPc = some s.pc ∧ s.pfx ≠ none) ∧
    (let s := { narrow with pc := 16#16 }; s.cfg.haltPc ≠ some s.pc ∧ s.cfg.imemWords ≤ s.pc.toNat) ∧
    (let s := { narrow with pc := 15#16 }.placeWord 0xC000#16;
      s.cfg.haltPc ≠ some s.pc ∧ s.pc.toNat < s.cfg.imemWords ∧
      s.cfg.codec.decode (Memory.read s.imem s.pc.toNat) = .error .reservedMajor) ∧
    (let s := { narrowLatched with pc := 15#16 };
      s.pc.toNat < s.cfg.imemWords ∧ s.cfg.codec.decode (Memory.read s.imem s.pc.toNat) = .ok (.subRr 0 0) ∧
      s.pfx ≠ none ∧ (Instr.subRr 0 0).takesNoPrefix = true) ∧
    (let s := narrowLatched.placeWord 0x1000#16;
      s.pc.toNat < s.cfg.imemWords ∧ s.cfg.codec.decode (Memory.read s.imem s.pc.toNat) = .ok (.subRi 0 0#4) ∧
      (Instr.subRi 0 0#4).takesNoPrefix = false) := by decide

theorem witness_PlacedWordRunsNext :
    let s := { narrow with pc := 15#16 }
    Memory.wf s.imem ∧ s.cfg.haltPc ≠ some s.pc ∧ s.pc.toNat < s.cfg.imemWords ∧ 0xFFFF < 65536 ∧
    s.cfg.codec.decode (BitVec.ofNat 16 0xFFFF) = .ok (.i12 0xFFF#12) ∧ s.cfg.delaySlots = 0 ∧
    s.cfg.codec = .specAssigned := by decide

/-- Two delay slots and the program `i12 0`, `br 9`, `subi r0, r0, 0`, `subi r0, r0, 0`. -/
def slotted : State :=
  { State.reset with
    cfg := { Config.atReset with delaySlots := 2 }
    imem := Memory.ofWords 0 [0xF000#16, 0xB009#16, 0x2000#16, 0x2000#16] }

/-- The state `k` steps after the `i12` of `slotted`. -/
def slottedRun : Nat → State
  | 0 => nextOr slotted
  | k + 1 => nextOr (slottedRun k)
where
  /-- The next state, or the same one at a stop. -/
  nextOr (s : State) : State :=
    match step s with
    | .next t => t
    | _ => s

theorem witness_DelaySlotsThenTarget :
    (slottedRun 0).cfg.wf = true ∧ (slottedRun 0).pending = [] ∧ (slottedRun 0).cfg.delaySlots = 2 ∧
    (slottedRun 0).fetch = .instr (.brRi 9#4) ∧ (slottedRun 0).transfersBy (.brRi 9#4) = true ∧
    (slottedRun 1).fetch = .instr (.subi 0 0 0#4) ∧ (slottedRun 1).transfersBy (.subi 0 0 0#4) = false ∧
    (slottedRun 2).fetch = .instr (.subi 0 0 0#4) ∧ (slottedRun 1).pc = 2#16 ∧ (slottedRun 2).pc = 3#16 ∧
    (slottedRun 3).pc = 9#16 ∧ (slottedRun 3).pending = [] := by decide

theorem witness_DelaySlotsThenTarget_steps :
    isNext (step (slottedRun 0)) = true ∧ isNext (step (slottedRun 1)) = true ∧ isNext (step (slottedRun 2)) = true := by
  decide

/-- One instruction of each format of R123, the branches among them. -/
theorem witness_PrefixMisuseFaults :
    (Instr.subRr 0 0).takesNoPrefix = true ∧ (Instr.brlRr 0 0).takesNoPrefix = true ∧
    (Instr.jz 5#10).takesNoPrefix = true ∧ (Instr.i12 0#12).takesNoPrefix = true ∧ (latched 0#12).pfx ≠ none := by
  decide

theorem witness_ImmediateFormsConsumeThePrefix :
    (Instr.subRi 0 0#4).takesNoPrefix = false ∧ (Instr.lwD 0 1 0#4).takesNoPrefix = false ∧
    (Instr.neg 0).takesNoPrefix = false ∧
    nextIs (exec (.subRi 0 0#4) (latched 1#12)) (fun t => decide (t.pfx = none)) = true := by decide

/-- R86 at the ends of both ranges. -/
theorem witness_ImmediateOperand :
    State.reset.pfx = none ∧ State.reset.immediate 0x8#4 = 0xFFF8#16 ∧ State.reset.immediate 0x7#4 = 7#16 ∧
    (latched 0#12).pfx = some 0#12 ∧ (latched 0#12).immediate 0xF#4 = 0xF#16 ∧
    (latched 0xFFF#12).immediate 0x8#4 = 0xFFF8#16 := by decide

theorem mapped_inv : mapped.Inv := by constructor <;> decide

theorem narrow_inv : narrow.Inv := by constructor <;> decide

/-- Both segment registers of width 0, and at the top of a segment the pointer wraps. -/
theorem witness_AddressFormation :
    narrow.Inv ∧ narrow.cfg.dsw = 0 ∧ narrow.cfg.ssw = 0 ∧ mapped.Inv ∧
    { mapped with ds := 2#16 }.address .d 0 1#4 = 0x2FFFF := ⟨narrow_inv, by decide, by decide, mapped_inv, by decide⟩

theorem witness_SubiResult : FormMet narrow narrowLatched ∧ isNext (exec (.subi 15 0 8#4) narrowLatched) = true := by
  decide
theorem witness_SubicResult : FormMet narrow narrowLatched ∧ isNext (exec (.subic 15 15 8#4) narrow) = true := by
  decide
theorem witness_DecrementAndNegate : narrow.cfg.wf = true ∧ narrow.pfx = none ∧
    isNext (exec (.dec 0) narrow) = true ∧ isNext (exec (.neg 15) narrow) = true := by decide
theorem witness_DecrementAndNegateWithFlags : narrow.cfg.wf = true ∧ narrow.pfx = none ∧
    nextIs (exec (.decc 0) narrow) (fun t => t.bf) = true ∧
    nextIs (exec (.negc 0) narrow) (fun t => !t.bf) = true := by decide
theorem witness_IncrementShorthands : narrow.cfg.wf = true ∧ narrow.pfx = none ∧
    isNext (exec (.inc 0) narrow) = true ∧ isNext (exec (.incc 0) narrow) = true := by decide
theorem witness_PrefixedShorthands : narrowLatched.cfg.wf = true ∧ narrowLatched.pfx = some 0xFFF#12 ∧
    isNext (exec (.inc 0) narrowLatched) = true ∧ isNext (exec (.negc 0) narrowLatched) = true := by decide
theorem witness_SubResult : FormMet narrow narrowLatched ∧ isNext (exec (.subRr 7 7) narrow) = true := by decide
theorem witness_SubcResult : FormMet narrow narrowLatched ∧ isNext (exec (.subcRr 1 2) narrow) = true := by decide
theorem witness_SbbResult : FormMet { narrow with bf := true } narrowLatched ∧
    isNext (exec (.sbbRr 1 2) { narrow with bf := true }) = true := by decide
theorem witness_SbbcResult : FormMet { narrow with bf := true } narrowLatched ∧
    isNext (exec (.sbbcRi 1 2#4) narrowLatched) = true := by decide
theorem witness_CmpResult : FormMet narrow narrowLatched ∧ isNext (exec (.cmpRr 3 3) narrow) = true := by decide
theorem witness_TwoWordSubtraction : narrow.cfg.wf = true ∧ narrow.pfx = none ∧ (0 : RegNum) ≠ 1 ∧ (0 : RegNum) ≠ 3 := by
  decide
theorem witness_BitwiseResults : FormMet narrow narrowLatched ∧ isNext (exec (.nandRr 1 1) narrow) = true := by
  decide
theorem witness_BitwiseFlagResults : FormMet narrow narrowLatched ∧ isNext (exec (.orcRr 0 0) narrow) = true := by
  decide
theorem witness_MullResult : FormMet narrow narrowLatched ∧ isNext (exec (.mullRr 2 2) narrow) = true := by decide
theorem witness_MulhResult : FormMet narrow narrowLatched ∧ isNext (exec (.mulhRi 2 0xF#4) narrow) = true := by
  decide

/-- Both shifts at both ends of the range of n: n = 0 and 15 to the left, 1 and 15 to the right. -/
theorem witness_ShiftsByMultiplication :
    narrow.cfg.wf = true ∧ narrow.pfx = none ∧
    stepOn 0x11C1 ((latched 0#12).setReg 1 0x8001#16) (fun t => decide (t.reg 1 = 0x8001#16)) = true ∧
    stepOn 0x11C0 ((latched 0x800#12).setReg 1 0x8001#16) (fun t => decide (t.reg 1 = 0x8000#16)) = true ∧
    stepOn 0x11D0 ((latched 0x800#12).setReg 1 0x8001#16) (fun t => decide (t.reg 1 = 0x4000#16)) = true ∧
    stepOn 0x11D2 ((latched 0#12).setReg 1 0x8001#16) (fun t => decide (t.reg 1 = 1#16)) = true := by decide

theorem witness_ConditionalJumps : FormMet narrow narrowLatched ∧ narrow.cfg.bxUpper = .zero := by decide

/-- Every predicate is met and missed by some flags. -/
theorem witness_LiteralJumpConditions :
    narrow.cfg.wf = true ∧ narrow.cfg.bxUpper = .zero ∧ narrow.cfg.jcond = JumpTable.literal ∧ narrow.pfx = none ∧
    [Cond.jnz, .jg, .ja].all (fun c => narrow.taken c) = true ∧
    [Cond.jz, .jl, .jb, .jbe, .jae].all (fun c => !narrow.taken c) = true ∧
    [Cond.jz, .jl, .jb, .jbe].all (fun c => { narrow with zf := true, nf := true, bf := true }.taken c) = true ∧
    [Cond.jnz, .jg, .ja, .jae].all (fun c => !{ narrow with zf := true, nf := true, bf := true }.taken c) = true ∧
    { narrow with zf := true }.taken .jae = true := by decide

theorem witness_AlternativeJumpConditions :
    let s := jumpState .alternative false false true
    s.cfg.wf = true ∧ s.cfg.bxUpper = .zero ∧ s.cfg.jcond = JumpTable.alternative ∧ s.pfx = none ∧
    s.taken .jbe = true ∧ s.taken .jae = false := by decide

theorem witness_PageKeepingJumps :
    let s := { State.reset with cfg := { Config.atReset with bxUpper := .keep }, pc := 0x1234#16 }
    s.cfg.wf = true ∧ s.cfg.bxUpper = .keep ∧ s.pfx = none ∧
    nextIs (exec (.jnz 0x2A#10) s) (fun t => decide (t.pc = 0x102A#16)) = true := by decide

theorem witness_BranchResult : FormMet narrow narrowLatched ∧ isNext (exec (.brRr 15) narrow) = true := by decide
theorem witness_BranchLinkResult : FormMet narrow narrowLatched ∧ isNext (exec (.brlRr 15 15) narrow) = true := by
  decide

/-- The ri form after an `i12`, and the rr form at the top of the address space. -/
theorem witness_CallThenReturn :
    (let s := { latched 0x30#12 with pc := 0x11#16 };
      s.cfg.wf = true ∧ nextIs (exec (.brlRi 15 0#4) s) (fun t =>
        decide (t.cfg = s.cfg) && decide (t.pfx = none) && decide (t.pc = 0x300#16) && decide (t.reg 15 = 0x12#16)) = true) ∧
    (let s := { State.reset.setReg 4 0x100#16 with pc := 0xFFFF#16 };
      s.cfg.wf = true ∧ nextIs (exec (.brlRr 15 4) s) (fun t =>
        decide (t.cfg = s.cfg) && decide (t.pfx = none) && decide (t.reg 15 = 0#16)) = true) := by decide

/-- Both clauses, at the lowest address and at the highest. -/
theorem witness_LoadWordFromRam :
    State.reset.cfg.wf = true ∧
    dataAddress State.reset.ds (State.reset.reg 1 - State.reset.immediate 0#4) = 0 ∧
    dataAddress State.reset.ss (State.reset.reg 1 - State.reset.immediate 0#4) = 0 ∧
    classify State.reset.cfg.memMap 0 = .ram ∧
    (let s := { State.reset with ds := 0xFFFF#16, ss := 0xFFFF#16 };
      dataAddress s.ds (s.reg 1 - s.immediate 1#4) = 0xFFFFFFFF ∧
      dataAddress s.ss (s.reg 1 - s.immediate 1#4) = 0xFFFFFFFF ∧
      classify s.cfg.memMap 0xFFFFFFFF = .ram) := by decide

theorem witness_StoreWordToRam :
    mapped.cfg.wf = true ∧ Memory.wf mapped.dmem ∧
    dataAddress mapped.ds (mapped.reg 1 - mapped.immediate 1#4) = 0xFFFF ∧
    dataAddress mapped.ss (mapped.reg 1 - mapped.immediate 1#4) = 0xFFFF ∧
    classify mapped.cfg.memMap 0xFFFF = .ram := by decide

/-- A store through DS and a load through SS, with DS = SS and another base register. -/
theorem witness_LoadReturnsTheWordStored :
    Memory.wf State.reset.dmem ∧ classify State.reset.cfg.memMap (State.reset.address .d 1 0#4) = .ram ∧
    nextIs (exec (storeOf .d 0 1 0#4) State.reset) (fun t =>
      decide (t.address .s 2 0#4 = State.reset.address .d 1 0#4)) = true := by decide

/-- The first and the last address of the device. -/
theorem witness_DeviceAccess :
    mapped.cfg.wf = true ∧
    classify mapped.cfg.memMap ((mapped.setReg 2 0x100#16).address .d 2 0#4) = .device ∧
    classify mapped.cfg.memMap ((mapped.setReg 2 0x10F#16).address .s 2 0#4) = .device ∧
    classify mapped.cfg.memMap ((mapped.setReg 2 0x110#16).address .d 2 0#4) = .ram := by decide

/-- The first and the last absent address. -/
theorem witness_AbsentAccessIsStuck :
    classify mapped.cfg.memMap ((mapped.setReg 2 0x200#16).address .d 2 0#4) = .absent ∧
    classify mapped.cfg.memMap ((mapped.setReg 2 0x20F#16).address .s 2 0#4) = .absent ∧
    classify mapped.cfg.memMap ((mapped.setReg 2 0x1FF#16).address .d 2 0#4) = .ram := by decide

theorem witness_PrefixResult : FormMet narrow narrowLatched ∧ isNext (exec (.i12 0#12) narrow) = true := by decide

theorem witness_LoadConstant : State.reset.cfg.wf = true ∧ State.reset.pfx = none ∧ State.reset.reg 13 = 0#16 := by
  decide

theorem witness_PrefixLatchLifetime :
    nextIs (exec (.i12 0#12) State.reset) (fun t => decide (t.pfx = some 0#12)) = true ∧
    isNext (exec (.subRi 0 0#4) (latched 0#12)) = true ∧ ∀ p, Instr.subRi 0 0#4 ≠ .i12 p :=
  ⟨by decide, by decide, fun _ h => by cases h⟩

/-- An instruction that is no transfer, at the last address of the pc; a jump that is not taken and one that
is; a branch of each form. -/
theorem witness_NextPc :
    (let s := { narrow with pc := 0x3FF#16 };
      s.cfg.wf = true ∧ nextIs (exec (.subRr 0 0) s) (fun t => decide (t.pc = 0#16)) = true ∧
      (Instr.subRr 0 0).transfers = false) ∧
    narrow.taken .jz = false ∧ isNext (exec (Cond.jump .jz 5#10) narrow) = true ∧
    narrow.taken .jnz = true ∧ isNext (exec (Cond.jump .jnz 0x3FF#10) narrow) = true ∧
    narrow.cfg.bxUpper = .zero ∧ isNext (exec (.brRr 15) narrow) = true ∧ isNext (exec (.brlRr 15 15) narrow) = true ∧
    isNext (exec (.brRi 0xF#4) narrow) = true ∧ isNext (exec (.brlRi 0 0#4) narrowLatched) = true := by decide

theorem witness_FlagWriters :
    isNext (exec (.subcRr 0 1) narrow) = true ∧ (Instr.subcRr 0 1).writesZf = false ∧
    isNext (exec (.andcRr 0 1) narrow) = true ∧ (Instr.andcRr 0 1).writesNfBf = false := by decide

/-- An instruction that reads no flag, and sbbc with BF as it was. -/
theorem witness_FlagReaders :
    (Instr.cmpRr 0 1).readsFlags = false ∧ isNext (exec (.cmpRr 0 1) narrow) = true ∧
    isNext (exec (.sbbcRr 0 1) { narrow with bf := true }) = true ∧
    ∀ (c : Cond) (addr : BitVec 10), Instr.sbbcRr 0 1 ≠ c.jump addr :=
  ⟨by decide, by decide, by decide, fun c _ h => by cases c <;> cases h⟩

theorem witness_ConstantsOfARun : isNext (step (narrow.withFetchWord 16 0x6000)) = true := by decide

theorem witness_OnlyStoresChangeData :
    (Instr.lwD 0 1 0#4).stores = false ∧ isNext (exec (.lwD 0 1 0#4) State.reset) = true ∧
    (Instr.swD 0 1 0#4).loads = false ∧ isNext (exec (.swD 0 1 0#4) State.reset) = true := by decide

theorem witness_StepKeepsTheInvariant : mapped.Inv ∧ isNext (step mapped) = true ∧
    narrow.Inv ∧ isNext (step narrow) = true := ⟨mapped_inv, by decide, narrow_inv, by decide⟩

/-- A launch with one word of program and one of RAM. -/
def oneWord : Launch where
  cfg := Config.atReset
  regs := Vector.replicate 16 0xAAAA#16
  zf := true
  nf := false
  bf := true
  dsInit := 1#16
  ssInit := 2#16
  program := Memory.ofWords 0 [0x0DDA#16]
  ram := [(0x10100, 0x1111#16)]

theorem witness_LaunchMeetsTheInvariant : oneWord.Inv := by constructor <;> decide

theorem witness_ExternalWriteKeepsTheInvariant :
    mapped.Inv ∧ 0xFFFFFFFF < 2 ^ (max mapped.cfg.dsw mapped.cfg.ssw + 16) ∧
    classify mapped.cfg.memMap 0xFFFFFFFF = .ram := ⟨mapped_inv, by decide, by decide⟩

theorem witness_KnownValues : State.reset.pfx = none := by decide

/-- The ends of the ranges of R105, and a constant that needs the bit above the unprefixed range. -/
theorem witness_AssembledImmediates :
    asmImm false (-8) = .ok 8#4 ∧ asmImm false 7 = .ok 7#4 ∧ asmImm true 15 = .ok 15#4 ∧
    asmPrefix (-2048) = .ok 0x800#12 ∧ asmPrefix 4095 = .ok 0xFFF#12 ∧
    asmImm false 8 = .error (.immediateRange 8) ∧ asmImm true 16 = .error (.immediateRange 16) ∧
    asmPrefix 4096 = .error (.prefixRange 4096) ∧ (latched 0x123#12).pfx = some 0x123#12 ∧
    (latched 0x123#12).immediate 0xF#4 = 0x123F#16 ∧
    assemble true (.br (.num 15)) = .ok (.brRi 0xF#4) ∧ assemble false (.br (.num 8)) = .error (.immediateRange 8) ∧
    assemble false (.lw .d 0 (.plus 1 8)) = .ok (.lwD 0 1 8#4) ∧
    assemble false (.sw .s 0 (.minus 1 8)) = .error (.immediateRange 8) ∧
    assemble false (.i12 (-2049)) = .error (.prefixRange (-2049)) ∧
    assembleProgram .specAssigned false [.i12 0x123, .subi 0 0 15] = .ok [0xF123#16, 0x200F#16] ∧
    assembleProgram .specAssigned false [.i12 0x123, .subi 0 0 15, .subi 0 0 15] = .error (.immediateRange 15) := by
  decide

end Sys2Proof.Tests
end

section
/-! The state rules of 10_state.md: what an instruction that goes on does to the control part of the state (pc, the
prefix latch, the segment registers, the program text, the parameters), said once for the whole instruction set, and
the statements that follow from it. -/

namespace Sys2Proof

/-! ## What an instruction leaves in the prefix latch (R31) -/

/-- The prefix an instruction leaves pending: that of `i12`, and none for every other instruction. -/
def Instr.prefixLeft : Instr → Option (BitVec 12)
  | .i12 p => some p
  | _ => none

theorem Instr.prefixLeft_jump (c : Cond) (addr : BitVec 10) : (c.jump addr).prefixLeft = none := by
  cases c <;> rfl

theorem Instr.prefixLeft_eq_none {i : Instr} (h : ∀ p, i ≠ .i12 p) : i.prefixLeft = none := by
  cases i with
  | i12 p => exact absurd rfl (h p)
  | _ => rfl

end Sys2Proof

namespace Sys2Proof.Machine

/-! ## Where an instruction leads -/

/-- Where a jump or branch leads when it is taken (R181, R191, R192); the next word for every other instruction. -/
def State.transferTarget (s : State) : Instr → Word
  | .jnz addr | .jz addr | .jl addr | .jg addr | .jb addr | .jbe addr | .ja addr | .jae addr => s.bxTarget addr
  | .brRr rs | .brlRr _ rs => truncPc s.cfg (s.reg rs)
  | .brRi imm | .brlRi _ imm => truncPc s.cfg (s.immediate imm)
  | _ => s.pcNext

/-- The pc after an instruction (R25). -/
def State.nextPc (s : State) (i : Instr) : Word := if s.transfersBy i then s.transferTarget i else s.pcNext

theorem State.transfersBy_jump (s : State) (c : Cond) (addr : BitVec 10) :
    s.transfersBy (c.jump addr) = s.taken c := by
  cases c <;> rfl

theorem State.transferTarget_jump (s : State) (c : Cond) (addr : BitVec 10) :
    s.transferTarget (c.jump addr) = s.bxTarget addr := by
  cases c <;> rfl

theorem State.nextPc_jump (s : State) (c : Cond) (addr : BitVec 10) :
    s.nextPc (c.jump addr) = if s.taken c then s.bxTarget addr else s.pcNext := by
  rw [State.nextPc, State.transfersBy_jump, State.transferTarget_jump]

/-- Only a jump or branch can be a taken one. -/
theorem State.transfersBy_eq_false (s : State) {i : Instr} (h : i.transfers = false) : s.transfersBy i = false := by
  cases i with
  | jnz | jz | jl | jg | jb | jbe | ja | jae | brRr | brlRr | brRi | brlRi => cases h
  | _ => rfl

theorem State.nextPc_of_not_transfersBy {s : State} {i : Instr} (h : s.transfersBy i = false) :
    s.nextPc i = s.pcNext := by
  simp [State.nextPc, h]

/-! ## The control part of the state after an instruction -/

/-- What the instruction `i` does to the control part of `s`: pc and the prefix latch follow R25 and R31, and the
segment registers, the program text and the parameters stay (R34, R66; log 7). -/
structure ControlAfter (s : State) (i : Instr) (t : State) : Prop where
  pc : t.pc = s.nextPc i
  pfx : t.pfx = i.prefixLeft
  ds : t.ds = s.ds
  ss : t.ss = s.ss
  imem : t.imem = s.imem
  cfg : t.cfg = s.cfg

/-- A conditional jump goes to its target or to the next word, by its condition. -/
theorem State.condJump_control {s t : State} {c : Cond} {addr : BitVec 10} (h : s.condJump c addr = .next t) :
    ControlAfter s (c.jump addr) t := by
  obtain ⟨-, rfl⟩ := State.unprefixed_next h
  refine ⟨?_, ?_, ?_, ?_, ?_, ?_⟩
  · rw [State.nextPc_jump]
    split <;> rfl
  · rw [Instr.prefixLeft_jump]
    split <;> rfl
  all_goals split <;> rfl

/-- Everything an instruction that goes on does to the control part of the state. -/
theorem exec_control {i : Instr} {s t : State} (h : exec i s = .next t) : ControlAfter s i t := by
  cases i with
  | lwD | lwS =>
    obtain ⟨v, n, rfl, -⟩ := State.load_next h
    exact ⟨rfl, rfl, rfl, rfl, rfl, rfl⟩
  | swD | swS =>
    obtain ⟨-, rfl⟩ | ⟨-, rfl⟩ := State.store_next h
    · exact ⟨rfl, rfl, rfl, rfl, rfl, rfl⟩
    · exact ⟨rfl, rfl, rfl, rfl, rfl, rfl⟩
  | jnz | jz | jl | jg | jb | jbe | ja | jae =>
    have hjump := State.condJump_control h
    exact hjump
  | subRr | subcRr | sbbRr | sbbcRr | andRr | andcRr | nandRr | nandcRr | orRr | orcRr | xorRr | xorcRr
  | mullRr | mulhRr | cmpRr | brRr | brlRr | i12 =>
    obtain ⟨-, rfl⟩ := State.unprefixed_next h
    exact ⟨rfl, rfl, rfl, rfl, rfl, rfl⟩
  | _ =>
    cases h
    exact ⟨rfl, rfl, rfl, rfl, rfl, rfl⟩

/-! ## The prefix latch -/

/-- A pending prefix gives the upper 12 bits of an immediate operand (R86). -/
theorem State.immediate_upper {s : State} {p : BitVec 12} (h : s.pfx = some p) (imm : BitVec 4) :
    (s.immediate imm).extractLsb' 4 12 = p := by
  rw [State.immediate_some h]
  exact BitVec.extractLsb'_append_eq_left

/-- Settles O47: the latch field of what every instruction does, and the append that makes an immediate. -/
theorem prefixLatchLifetime : Obligations.PrefixLatchLifetime := by
  unfold Obligations.PrefixLatchLifetime
  refine ⟨fun i s t h => ?_, fun s p imm hp => State.immediate_upper hp imm, rfl, State.launch_pfx⟩
  have hpfx := (exec_control h).pfx
  constructor
  · rintro p rfl
    exact hpfx
  · intro hi
    rw [hpfx, Instr.prefixLeft_eq_none hi]

/-! ## The program counter -/

/-- Settles O48: the pc is `State.nextPc`, read for each kind of instruction. -/
theorem nextPc : Obligations.NextPc := by
  unfold Obligations.NextPc
  intro i s t hwf h
  have hpc := (exec_control h).pc
  refine ⟨fun hi => ?_, ?_, ?_, ?_⟩
  · have hstay : s.transfersBy i = false := by
      obtain hi | ⟨c, addr, rfl, hc⟩ := hi
      · exact s.transfersBy_eq_false hi
      · rw [State.transfersBy_jump, hc]
    rw [hpc, State.nextPc_of_not_transfersBy hstay, State.pcNext_toNat hwf]
  · rintro c addr rfl hc hupper
    rw [hpc, State.nextPc_jump, if_pos hc, State.bxTarget_zero hupper]
  · rintro rd rs (rfl | rfl) <;> exact hpc ▸ truncPc_toNat hwf (s.reg rs)
  · rintro rd imm (rfl | rfl) <;> exact hpc ▸ truncPc_toNat hwf (s.immediate imm)

/-! ## The constants of a run -/

/-- Settles O51: no instruction changes them, and neither do the delay slots around it. -/
theorem constantsOfARun : Obligations.ConstantsOfARun := by
  unfold Obligations.ConstantsOfARun
  refine ⟨fun l => ⟨rfl, rfl, rfl⟩, fun s t h => ?_⟩
  obtain ⟨i, u, -, hexec, rfl⟩ := step_next h
  have hu := exec_control hexec
  simp only [State.settle_ds, State.settle_ss, State.settle_imem, State.settle_cfg]
  exact ⟨hu.ds, hu.ss, hu.imem, hu.cfg⟩

end Sys2Proof.Machine
end

section
/-! The data memory rules of 20_memory.md: how a data address is formed (R52, R53), and that both segment registers
address one memory (R54). -/

namespace Sys2Proof.Machine

/-! ## Data addresses -/

/-- The pointer of R52, on unbounded integers. -/
theorem State.pointer_toInt (s : State) (rs : RegNum) (imm : BitVec 4) :
    ((s.pointer rs imm).toNat : Int) = ((s.reg rs).toNat - (s.immediate imm).toNat : Int) % 65536 := by
  rw [State.pointer, ← diff_eq_sub, diff_toInt, Bool.toNat_false, Int.natCast_zero, Int.sub_zero]

/-- A segment register of width 0 leaves the pointer alone. -/
theorem dataAddress_of_width_zero {seg ptr : Word} {n : Nat} (hseg : seg.toNat < 2 ^ n) (hn : n = 0) :
    dataAddress seg ptr = ptr.toNat := by
  subst hn
  have hzero : seg.toNat = 0 := Nat.lt_one_iff.1 hseg
  rw [dataAddress, hzero, Nat.zero_mul, Nat.zero_add]

/-- Settles O15: the pointer as an integer, and the widths of DS and SS that the invariant gives. -/
theorem addressFormation : Obligations.AddressFormation := by
  unfold Obligations.AddressFormation
  intro s rs imm
  refine ⟨s.pointer_toInt rs imm, rfl, rfl, ?_, ?_, ?_⟩
  · exact fun hinv hdsw => dataAddress_of_width_zero hinv.ds hdsw
  · exact fun hinv hssw => dataAddress_of_width_zero hinv.ss hssw
  · exact fun hinv => ⟨dataAddress_lt hinv.ds, dataAddress_lt hinv.ss⟩

/-! ## Loads and stores through either segment register -/

theorem exec_loadOf (g : Seg) (rd rs : RegNum) (imm : BitVec 4) (s : State) :
    exec (loadOf g rd rs imm) s = s.load rd (s.address g rs imm) := by
  cases g <;> rfl

theorem exec_storeOf (g : Seg) (rd rs : RegNum) (imm : BitVec 4) (s : State) :
    exec (storeOf g rd rs imm) s = s.store (s.address g rs imm) (s.reg rd) := by
  cases g <;> rfl

/-- A store to RAM that goes on leaves its word at its address, which is still RAM. -/
theorem State.store_ram_read {s t : State} {a : Nat} {v : Word} (hmem : Memory.wf s.dmem)
    (hram : classify s.cfg.memMap a = .ram) (h : s.store a v = .next t) :
    t.ramRead a = v ∧ classify t.cfg.memMap a = .ram := by
  rw [State.store_ram hram] at h
  cases h
  exact ⟨State.ramWrite_ramRead_same hmem a v, hram⟩

/-- Settles O42: only the numeric address reaches the memory, so the read after a write decides. -/
theorem loadReturnsTheWordStored : Obligations.LoadReturnsTheWordStored := by
  unfold Obligations.LoadReturnsTheWordStored
  intro g g' rd rs rd' rs' imm imm' s t hmem hram hstore haddr
  rw [exec_storeOf] at hstore
  obtain ⟨hread, hram'⟩ := State.store_ram_read hmem hram hstore
  rw [exec_loadOf, haddr, State.load_ram hram', hread]
  exact ⟨_, rfl, State.setReg_reg_same t rd' _⟩

end Sys2Proof.Machine
end

section
/-! The encoding rules of 30_encoding.md: the immediate operand (R86) and the assembly language's immediates (R105),
memory operands (R106) and segment suffixes (R107). -/

namespace Sys2Proof.Machine

/-! ## The immediate operand -/

/-- Without a prefix the operand is the signed value of the field (R86). -/
theorem State.immediate_none_toInt {s : State} (h : s.pfx = none) (imm : BitVec 4) :
    (s.immediate imm).toInt = imm.toInt := by
  rw [State.immediate_none h, BitVec.toInt_signExtend_of_le (by decide)]

/-- After a prefix the operand is the prefix followed by the raw field (R86). -/
theorem State.immediate_some_toNat {s : State} {p : BitVec 12} (h : s.pfx = some p) (imm : BitVec 4) :
    (s.immediate imm).toNat = p.toNat * 16 + imm.toNat := by
  rw [State.immediate_some h, BitVec.toNat_append, ← Nat.shiftLeft_add_eq_or_of_lt imm.isLt, Nat.shiftLeft_eq]

/-- Settles O14: sign extension keeps the signed value, and the append is a shift by four bits. -/
theorem immediateOperand : Obligations.ImmediateOperand := by
  unfold Obligations.ImmediateOperand
  exact fun s imm => ⟨fun h => State.immediate_none_toInt h imm, fun p h => State.immediate_some_toNat h imm⟩

/-! ## The ranges of assembled immediates -/

/-- The immediate field of an assembled ri or rri instruction: `instr` is the rest of the instruction (R105). -/
theorem asmImm_map_range (pre : Bool) (v : Int) (instr : BitVec 4 → Instr) :
    (-8 ≤ v ∧ v ≤ (if pre then 15 else 7) →
      ∃ b : BitVec 4, (b.toNat : Int) = v % 16 ∧ (asmImm pre v).map instr = .ok (instr b)) ∧
    (v < -8 ∨ (if pre then 15 else 7) < v → ∃ e, (asmImm pre v).map instr = .error e) := by
  unfold asmImm
  constructor
  · intro hin
    rw [if_pos hin]
    refine ⟨BitVec.ofInt 4 v, ?_, rfl⟩
    rw [BitVec.toNat_ofInt]
    omega
  · intro hout
    rw [if_neg (by omega)]
    exact ⟨_, rfl⟩

/-- The field of an assembled `i12` (R105). -/
theorem assemble_i12_range (pre : Bool) (v : Int) :
    (-2048 ≤ v ∧ v ≤ 4095 →
      ∃ b : BitVec 12, (b.toNat : Int) = v % 4096 ∧ assemble pre (.i12 v) = .ok (.i12 b)) ∧
    (v < -2048 ∨ 4095 < v → ∃ e, assemble pre (.i12 v) = .error e) := by
  simp only [assemble, asmPrefix]
  constructor
  · intro hin
    rw [if_pos hin]
    refine ⟨BitVec.ofInt 12 v, ?_, rfl⟩
    rw [BitVec.toNat_ofInt]
    omega
  · intro hout
    rw [if_neg (by omega)]
    exact ⟨_, rfl⟩

/-- A 16-bit constant is an `i12` line with its upper 12 bits and an instruction with its low nibble (R105). -/
theorem assemble_constant (k : Word) (rd rs : RegNum) :
    ∃ p b, assemble false (.i12 (k.toNat / 16 : Nat)) = .ok (.i12 p) ∧
      assemble true (.subi rd rs (k.toNat % 16 : Nat)) = .ok (.subi rd rs b) ∧
      ∀ s : State, s.pfx = some p → s.immediate b = k := by
  have hk := k.isLt
  obtain ⟨p, hp, hprefix⟩ := (assemble_i12_range false (k.toNat / 16 : Nat)).1 (by omega)
  have hrange : -8 ≤ ((k.toNat % 16 : Nat) : Int) ∧ ((k.toNat % 16 : Nat) : Int) ≤ 15 := by omega
  obtain ⟨b, hb, hnibble⟩ := (asmImm_map_range true _ (.subi rd rs)).1 hrange
  refine ⟨p, b, hprefix, hnibble, fun s hs => BitVec.eq_of_toNat_eq ?_⟩
  rw [State.immediate_some_toNat hs]
  omega

/-! ## The words of a program -/

theorem Stmt.isPrefix_iff (line : Stmt) : line.isPrefix = true ↔ ∃ v, line = .i12 v := by
  cases line <;> simp [Stmt.isPrefix]

/-- Whether line `k` of a program stands after an `i12` line; `pre` says so of the first line. -/
def followsPrefix (pre : Bool) (lines : List Stmt) : Nat → Bool
  | 0 => pre
  | k + 1 => lines[k]?.any Stmt.isPrefix

theorem followsPrefix_cons_succ (pre : Bool) (line : Stmt) (rest : List Stmt) (k : Nat) :
    followsPrefix pre (line :: rest) (k + 1) = followsPrefix line.isPrefix rest k := by
  cases k <;> rfl

theorem followsPrefix_iff (lines : List Stmt) (k : Nat) :
    followsPrefix false lines k = true ↔ 0 < k ∧ ∃ v, lines[k - 1]? = some (.i12 v) := by
  cases k with
  | zero => simp [followsPrefix]
  | succ k => simp [followsPrefix, Option.any_eq_true, Stmt.isPrefix_iff]

/-- A program assembles line by line: its first line to one word, the rest to the rest. -/
theorem assembleProgram_cons_ok_iff {c : Codec} {pre : Bool} {line : Stmt} {rest : List Stmt} {ws : List Word} :
    assembleProgram c pre (line :: rest) = .ok ws ↔
      ∃ i w ws', assemble pre line = .ok i ∧ c.encode i = some w ∧
        assembleProgram c line.isPrefix rest = .ok ws' ∧ ws = w :: ws' := by
  rw [assembleProgram]
  cases assemble pre line with
  | error e => simp
  | ok i =>
    cases assembleProgram c line.isPrefix rest with
    | error e => simp
    | ok ws' =>
      cases hw : c.encode i with
      | none => simp [hw]
      | some w => simp [hw, eq_comm]

/-- A program assembles to as many words as it has lines, each that of its line. -/
theorem assembleProgram_ok_iff (c : Codec) (pre : Bool) (lines : List Stmt) (ws : List Word) :
    assembleProgram c pre lines = .ok ws ↔
      ws.length = lines.length ∧ ∀ (k : Nat) (line : Stmt), lines[k]? = some line →
        ∃ i, assemble (followsPrefix pre lines k) line = .ok i ∧ c.encode i = ws[k]? := by
  induction lines generalizing pre ws with
  | nil => simp [assembleProgram]
  | cons line rest ih =>
    simp only [assembleProgram_cons_ok_iff, ih]
    constructor
    · rintro ⟨i, w, ws', hi, hw, ⟨hlen, hrest⟩, rfl⟩
      refine ⟨by simp [hlen], fun k line' hk => ?_⟩
      cases k with
      | zero =>
        cases hk
        exact ⟨i, hi, hw⟩
      | succ k =>
        rw [followsPrefix_cons_succ]
        exact hrest k line' hk
    · rintro ⟨hlen, hall⟩
      cases ws with
      | nil => cases hlen
      | cons w ws' =>
        obtain ⟨i, hi, hw⟩ := hall 0 line rfl
        refine ⟨i, w, ws', hi, hw, ⟨Nat.succ.inj hlen, fun k line' hk => ?_⟩, rfl⟩
        rw [← followsPrefix_cons_succ pre line]
        exact hall (k + 1) line' hk

/-- Settles O59: one range lemma for every immediate field, one for `i12`, and the program by induction on its lines. -/
theorem assembledImmediates : Obligations.AssembledImmediates := by
  unfold Obligations.AssembledImmediates
  refine ⟨fun pre v => ?_, assemble_i12_range, fun c lines ws => ?_, assemble_constant⟩
  · have himm := asmImm_map_range pre v
    refine ⟨fun rd rs => himm _, fun rd rs => himm _, fun op rd => himm _, ?_, ?_, himm _, fun rd => himm _⟩
    · rintro x rd m rfl
      exact himm _
    · rintro x rd m rfl
      exact himm _
  · rw [assembleProgram_ok_iff]
    refine and_congr_right fun _ => forall₂_congr fun k line => ?_
    simp only [← followsPrefix_iff, ← Bool.eq_iff_iff]
    exact ⟨fun h pre hk hpre => hpre ▸ h hk, fun h hk => h _ hk rfl⟩

/-! ## The spellings of loads and stores -/

/-- Only the base register and the offset of a load's memory operand count, and only the segment of its suffix. -/
theorem assemble_lw {x : Suffix} {m : MemOperand} {g : Seg} {rs : RegNum} {k : Int} (hseg : x.seg = g)
    (hbase : m.base = rs) (hoffset : m.offset = k) (prefixed : Bool) (rd : RegNum) :
    assemble prefixed (.lw x rd m) = (asmImm prefixed k).map (loadOf g rd rs) := by
  rw [assemble, hseg, hbase, hoffset]

/-- Only the base register and the offset of a store's memory operand count, and only the segment of its suffix. -/
theorem assemble_sw {x : Suffix} {m : MemOperand} {g : Seg} {rs : RegNum} {k : Int} (hseg : x.seg = g)
    (hbase : m.base = rs) (hoffset : m.offset = k) (prefixed : Bool) (rd : RegNum) :
    assemble prefixed (.sw x rd m) = (asmImm prefixed k).map (storeOf g rd rs) := by
  rw [assemble, hseg, hbase, hoffset]

/-- Settles O60: each spelling names its segment, its base register and its offset. -/
theorem memorySpellings : Obligations.MemorySpellings := by
  unfold Obligations.MemorySpellings
  intro prefixed x rd rs k
  have hlw {x m} := @assemble_lw x m _ _ _ rfl rfl rfl prefixed rd
  have hsw {x m} := @assemble_sw x m _ _ _ rfl rfl rfl prefixed rd
  exact ⟨hlw, hlw, hlw, hsw, hsw, hsw, hlw, hlw, hlw, hlw, hsw, hsw, hsw, hsw⟩

end Sys2Proof.Machine
end

section
/-! The prefix rules of 40_prefix_i12.md: what `i12` does (R120) and when it is a misuse (R123). -/

namespace Sys2Proof.Machine

/-! ## The immediate prefix -/

/-- `i12` latches its 12 bits, unless a prefix is pending (R120). -/
theorem exec_i12 (p : BitVec 12) (s : State) : exec (.i12 p) s = s.unprefixed (s.latchPrefix p) := rfl

/-- A pending prefix is a misuse, whatever its bits (R123). -/
theorem State.unprefixed_of_ne_none {s : State} (h : s.pfx ≠ none) (t : State) :
    s.unprefixed t = .fault (.prefixMisuse s.pc) := by
  obtain ⟨p, hp⟩ := Option.ne_none_iff_exists'.1 h
  exact State.unprefixed_some hp t

theorem State.latchPrefix_sameButPc (s : State) (p : BitVec 12) : SameButPc s (s.latchPrefix p) :=
  ⟨s.latchPrefix_reg p, ⟨rfl, rfl, rfl⟩, ⟨rfl, rfl, rfl, rfl, fun _ => rfl⟩, s.latchPrefix_ramRead p, rfl, rfl⟩

/-- Settles O45: the two answers of the prefix check, with the latched state as the next one. -/
theorem prefixResult : Obligations.PrefixResult := by
  unfold Obligations.PrefixResult
  intro p s hwf
  rw [exec_i12]
  refine ⟨wordI12_toNat p, fun hnone => ?_, fun hpending => State.unprefixed_of_ne_none hpending _⟩
  rw [State.unprefixed_none hnone]
  exact ⟨_, rfl, s.latchPrefix_pfx p, State.pcNext_toNat hwf, s.latchPrefix_sameButPc p⟩

end Sys2Proof.Machine
end

section
/-! The two-operand operations of 41_alu.md and 42_multiply.md: what each does to the inputs its format routes to it
(R93, R134), and the rr, ri and rri forms built from that, once for every instruction. -/

namespace Sys2Proof.Machine

/-! ## One meaning for the rr and the ri form -/

/-- What an operation with destination `rd` does with its left and right input. -/
def State.alu (s : State) (op : AluOp) (rd : RegNum) (ab : Inputs) : State :=
  match op with
  | .sub => s.subtract rd ab false
  | .subc => s.subtractFlags rd ab false
  | .sbb => s.subtract rd ab s.bf
  | .sbbc => s.subtractFlags rd ab s.bf
  | .and => s.bitwise rd (Inputs.and ab)
  | .andc => s.bitwiseFlags rd (Inputs.and ab)
  | .nand => s.bitwise rd (Inputs.nand ab)
  | .nandc => s.bitwiseFlags rd (Inputs.nand ab)
  | .or => s.bitwise rd (Inputs.or ab)
  | .orc => s.bitwiseFlags rd (Inputs.or ab)
  | .xor => s.bitwise rd (Inputs.xor ab)
  | .xorc => s.bitwiseFlags rd (Inputs.xor ab)
  | .mull => s.multiply rd (Inputs.productLow ab)
  | .mulh => s.multiply rd (Inputs.productHigh ab)
  | .cmp => s.compare ab

theorem exec_aluRr (op : AluOp) (rd rs : RegNum) (s : State) :
    exec (op.rr rd rs) s = s.unprefixed (s.alu op rd (s.rrInputs rd rs)) := by
  cases op <;> rfl

theorem exec_aluRi (op : AluOp) (rd : RegNum) (imm : BitVec 4) (s : State) :
    exec (op.ri rd imm) s = .next (s.alu op rd (s.riInputs rd imm)) := by
  cases op <;> rfl

theorem encode_aluRr (op : AluOp) (rd rs : RegNum) : encode (op.rr rd rs) = wordRr 0x0#4 rd rs op.fn := by
  cases op <;> rfl

theorem encode_aluRi (op : AluOp) (rd : RegNum) (imm : BitVec 4) :
    encode (op.ri rd imm) = wordRi 0x1#4 rd op.fn imm := by
  cases op <;> rfl

/-! ## The forms -/

/-- The rr form of an operation that has the effect `effect` on any inputs. -/
theorem rrForm_of_alu {op : AluOp} {effect : State → RegNum → Word → Word → State → Prop}
    (h : ∀ {s : State}, s.cfg.wf = true → ∀ rd ab, effect s rd ab.1 ab.2 (s.alu op rd ab)) :
    RrForm op.rr op.fn.toNat effect := by
  intro rd rs s hwf
  rw [encode_aluRr, exec_aluRr]
  refine ⟨?_, fun hnone => ?_, fun hpending => State.unprefixed_of_ne_none hpending _⟩
  · rw [wordRr_toNat, BitVec.toNat_zero, Nat.zero_mul, Nat.zero_add]
  · rw [State.unprefixed_none hnone]
    exact ⟨_, rfl, h hwf rd (s.rrInputs rd rs)⟩

/-- The ri form of an operation that has the effect `effect` on any inputs. -/
theorem riForm_of_alu {op : AluOp} {effect : State → RegNum → Word → Word → State → Prop}
    (h : ∀ {s : State}, s.cfg.wf = true → ∀ rd ab, effect s rd ab.1 ab.2 (s.alu op rd ab)) :
    RiForm op.ri op.fn.toNat effect := by
  intro rd imm s hwf
  rw [encode_aluRi, exec_aluRi]
  exact ⟨wordRi_toNat _ _ _ _, _, rfl, h hwf rd (s.riInputs rd imm)⟩

/-- Both forms of an operation, from its effect on any inputs. -/
theorem forms_of_alu (op : AluOp) {effect : State → RegNum → Word → Word → State → Prop}
    (h : ∀ {s : State}, s.cfg.wf = true → ∀ rd ab, effect s rd ab.1 ab.2 (s.alu op rd ab)) :
    RrForm op.rr op.fn.toNat effect ∧ RiForm op.ri op.fn.toNat effect :=
  ⟨rrForm_of_alu h, riForm_of_alu h⟩

/-- The rri form of an instruction that leads to `next` on the inputs of R134. -/
theorem rriForm_of_next {i : RegNum → RegNum → BitVec 4 → Instr} {major : BitVec 4}
    {effect : State → RegNum → Word → Word → State → Prop} {next : State → RegNum → Inputs → State}
    (hword : ∀ rd rs imm, encode (i rd rs imm) = wordRri major rd rs imm)
    (hexec : ∀ rd rs imm s, exec (i rd rs imm) s = .next (next s rd (s.rriInputs rs imm)))
    (h : ∀ {s : State}, s.cfg.wf = true → ∀ rd ab, effect s rd ab.1 ab.2 (next s rd ab)) :
    RriForm i major.toNat effect := by
  intro rd rs imm s hwf
  rw [hword, hexec]
  exact ⟨wordRri_toNat _ _ _ _, _, rfl, h hwf rd (s.rriInputs rs imm)⟩

end Sys2Proof.Machine
end

section
/-! The arithmetic rules of 41_alu.md: the subtractions, their short-hands and the compare. -/

namespace Sys2Proof.Machine

/-! ## Three operands (R140, R141) -/

/-- Settles O16: the rri form of the plain subtraction. -/
theorem subiResult : Obligations.SubiResult := by
  unfold Obligations.SubiResult
  exact rriForm_of_next (major := 0x2#4) (fun _ _ _ => rfl) (fun _ _ _ _ => rfl)
    fun hwf rd ab => State.subtract_plainDiff hwf rd ab fun _ => false

/-- Settles O17: the rri form of the flag-setting subtraction. -/
theorem subicResult : Obligations.SubicResult := by
  unfold Obligations.SubicResult
  exact rriForm_of_next (major := 0x3#4) (fun _ _ _ => rfl) (fun _ _ _ _ => rfl)
    fun hwf rd ab => State.subtractFlags_flagDiff hwf rd ab fun _ => false

/-! ## Two operands (R146 to R149) -/

/-- Settles O22: both forms of the plain subtraction. -/
theorem subResult : Obligations.SubResult := by
  unfold Obligations.SubResult
  exact forms_of_alu .sub fun hwf rd ab => State.subtract_plainDiff hwf rd ab fun _ => false

/-- Settles O23: both forms of the flag-setting subtraction. -/
theorem subcResult : Obligations.SubcResult := by
  unfold Obligations.SubcResult
  exact forms_of_alu .subc fun hwf rd ab => State.subtractFlags_flagDiff hwf rd ab fun _ => false

/-- Settles O24: both forms of the plain subtraction, with BF as the borrow-in. -/
theorem sbbResult : Obligations.SbbResult := by
  unfold Obligations.SbbResult
  exact forms_of_alu .sbb fun hwf rd ab => State.subtract_plainDiff hwf rd ab State.bf

/-- Settles O25: both forms of the flag-setting subtraction, with BF as the borrow-in. -/
theorem sbbcResult : Obligations.SbbcResult := by
  unfold Obligations.SbbcResult
  exact forms_of_alu .sbbc fun hwf rd ab => State.subtractFlags_flagDiff hwf rd ab State.bf

/-! ## Compare (R152) -/

/-- Settles O26: both forms of the compare. -/
theorem cmpResult : Obligations.CmpResult := by
  unfold Obligations.CmpResult
  exact forms_of_alu .cmp State.compare_compares

/-! ## Short-hands (R142, R143, R150, R151) -/

/-- Without a prefix the field 1 is the operand 1. -/
theorem State.immediate_one {s : State} (h : s.pfx = none) : s.immediate 1#4 = 1#16 :=
  State.immediate_none h 1#4

/-- Without a prefix the field 0 is the operand 0. -/
theorem State.immediate_zero {s : State} (h : s.pfx = none) : s.immediate 0#4 = 0#16 :=
  State.immediate_none h 0#4

/-- Settles O18: `dec` is `subi` with the operand 1 and `neg` is `sub` from the operand 0. -/
theorem decrementAndNegate : Obligations.DecrementAndNegate := by
  unfold Obligations.DecrementAndNegate
  intro rd s hwf hpfx
  have hdec := (subiResult rd rd 1#4 s hwf).2
  have hneg := (subResult.2 rd 0#4 s hwf).2
  rw [State.immediate_one hpfx] at hdec
  rw [State.immediate_zero hpfx] at hneg
  exact ⟨rfl, rfl, hdec, hneg⟩

theorem Answers.imp {o : Result} {P Q : State → Prop} (h : Answers o P) (hPQ : ∀ t, P t → Q t) : Answers o Q := by
  obtain ⟨t, ht, hP⟩ := h
  exact ⟨t, ht, hPQ t hP⟩

theorem FlagDiff.bf_eq {bin : State → Bool} {s t : State} {rd : RegNum} {a b : Word}
    (h : FlagDiff bin s rd a b t) : t.bf = Borrows a b (bin s) := by
  obtain ⟨-, -, -, hbf, -⟩ := h
  exact hbf

/-- Taking 1 away borrows from 0 alone. -/
theorem borrows_one (a : Word) : Borrows a 1#16 false = decide (a.toNat = 0) :=
  decide_eq_decide.2 Nat.lt_one_iff

/-- Taking a number away from 0 borrows unless it is 0. -/
theorem zero_borrows (b : Word) : Borrows 0#16 b false = decide (b.toNat ≠ 0) :=
  decide_eq_decide.2 Nat.pos_iff_ne_zero

/-- Settles O19: as for `dec` and `neg`, with the borrow of a difference with 1 and of one from 0. -/
theorem decrementAndNegateWithFlags : Obligations.DecrementAndNegateWithFlags := by
  unfold Obligations.DecrementAndNegateWithFlags
  intro rd s hwf hpfx
  have hdecc := (subicResult rd rd 1#4 s hwf).2
  have hnegc := (subcResult.2 rd 0#4 s hwf).2
  rw [State.immediate_one hpfx] at hdecc
  rw [State.immediate_zero hpfx] at hnegc
  refine ⟨rfl, rfl, hdecc.imp fun t ht => ⟨ht, ?_⟩, hnegc.imp fun t ht => ⟨ht, ?_⟩⟩
  · rw [ht.bf_eq, borrows_one]
  · rw [ht.bf_eq, zero_borrows]

end Sys2Proof.Machine
end

section
/-! The bitwise rules of 41_alu.md: and, nand, or, xor and their flag-setting forms. -/

namespace Sys2Proof.Machine

/-- Settles O28: each operation acts bit by bit and writes no flag. -/
theorem bitwiseResults : Obligations.BitwiseResults := by
  unfold Obligations.BitwiseResults
  exact ⟨forms_of_alu .and fun hwf => State.bitwise_plainBits hwf Inputs.and_bit,
    forms_of_alu .nand fun hwf => State.bitwise_plainBits hwf Inputs.nand_bit,
    forms_of_alu .or fun hwf => State.bitwise_plainBits hwf Inputs.or_bit,
    forms_of_alu .xor fun hwf => State.bitwise_plainBits hwf Inputs.xor_bit⟩

/-- Settles O29: each operation acts bit by bit, and ZF tests its result. -/
theorem bitwiseFlagResults : Obligations.BitwiseFlagResults := by
  unfold Obligations.BitwiseFlagResults
  exact ⟨forms_of_alu .andc fun hwf => State.bitwiseFlags_flagBits hwf Inputs.and_bit,
    forms_of_alu .nandc fun hwf => State.bitwiseFlags_flagBits hwf Inputs.nand_bit,
    forms_of_alu .orc fun hwf => State.bitwiseFlags_flagBits hwf Inputs.or_bit,
    forms_of_alu .xorc fun hwf => State.bitwiseFlags_flagBits hwf Inputs.xor_bit⟩

end Sys2Proof.Machine
end

section
/-! The multiply rules of 42_multiply.md: each half of the unsigned product, in both forms. -/

namespace Sys2Proof.Machine

/-- Settles O30: both forms of the low half, from what it does to any inputs. -/
theorem mullResult : Obligations.MullResult := by
  unfold Obligations.MullResult
  exact forms_of_alu .mull State.multiply_productLow

/-- Settles O31: both forms of the high half, from what it does to any inputs. -/
theorem mulhResult : Obligations.MulhResult := by
  unfold Obligations.MulhResult
  exact forms_of_alu .mulh State.multiply_productHigh

end Sys2Proof.Machine
end

section
/-! The flow control rules of 43_flow_control.md: the conditional jumps (R181), the literal JCOND table and what it says
after a compare (R182 to R190), and the branches (R191, R192). -/

namespace Sys2Proof.Machine

/-- While no prefix is pending, an instruction that takes none answers its next state. -/
theorem State.unprefixed_answers {s t : State} {P : State → Prop} (hnone : s.pfx = none) (h : P t) :
    Answers (s.unprefixed t) P :=
  ⟨t, State.unprefixed_none hnone t, h⟩

/-! ## Conditional jumps (R181) -/

/-- Settles O33: what a jump does without a prefix, with the zero-extended field as its target. -/
theorem conditionalJumps : Obligations.ConditionalJumps := by
  unfold Obligations.ConditionalJumps
  intro c addr s hwf hupper
  rw [encode_jump, exec_jump]
  refine ⟨wordBx_toNat c addr, fun hnone => ?_, fun hpending => State.unprefixed_of_ne_none hpending _⟩
  have hjump := State.condJump_answers hwf hnone c addr
  rw [State.bxTarget_zero hupper] at hjump
  exact hjump

/-- The word of a jump, and where it goes by any proposition its condition says. -/
theorem jump_goes {s : State} (hwf : s.cfg.wf = true) (hupper : s.cfg.bxUpper = .zero) (addr : BitVec 10) (c : Cond)
    {taken : Prop} (htaken : s.taken c = true ↔ taken) :
    (encode (c.jump addr)).toNat = 0x8000 + c.cc.toNat * 1024 + addr.toNat ∧
    (s.pfx = none → Answers (exec (c.jump addr) s) fun t => SameButPc s t ∧ t.pfx = none ∧
      (taken → t.pc.toNat = addr.toNat) ∧ (¬taken → t.pc.toNat = (s.pc.toNat + 1) % 2 ^ s.cfg.pcw)) := by
  obtain ⟨hword, hanswers, -⟩ := conditionalJumps c addr s hwf hupper
  refine ⟨hword, fun hnone => (hanswers hnone).imp ?_⟩
  rintro t ⟨hpc, hpfx, hsame⟩
  refine ⟨hsame, hpfx, fun h => ?_, fun h => ?_⟩
  · rw [hpc]
    exact if_pos (htaken.2 h)
  · rw [hpc]
    exact if_neg (mt htaken.1 h)

/-! ## The literal JCOND table (R182 to R189) -/

/-- The predicate column of R190, literal reading. -/
def State.literalTaken (s : State) : Cond → Bool
  | .jnz => !s.zf
  | .jz => s.zf
  | .jl => s.nf
  | .jg => !s.nf
  | .jb => s.bf
  | .jbe => s.bf && s.zf
  | .ja => !s.bf
  | .jae => !s.bf && s.zf

theorem State.taken_literal {s : State} (hlit : s.cfg.jcond = JumpTable.literal) (c : Cond) :
    s.taken c = s.literalTaken c := by
  rw [State.taken, hlit]
  cases c <;> rfl

/-! ## After a compare (R190) -/

/-- The difference without a borrow-in is the subtraction of 16-bit words. -/
theorem IsDiff.eq_sub {a b r : Word} (h : IsDiff a b false r) : r = a - b := by
  rw [← diff_eq_sub]
  exact BitVec.eq_of_toNat_eq (Int.ofNat.inj (h.trans (diff_isDiff a b false).symm))

/-- Not to borrow is the unsigned order (R131). -/
theorem not_borrows_eq_le (a b : Word) : (!Borrows a b false) = decide (b.toNat ≤ a.toNat) := by
  simp [Borrows, ← decide_not]

/-- Equal words do not borrow. -/
theorem borrows_and_eq (a b : Word) : (Borrows a b false && decide (a = b)) = false := by
  by_cases hab : a = b
  · simp [Borrows, hab]
  · simp [hab]

/-- Words that do not borrow, and are equal, are just equal. -/
theorem not_borrows_and_eq (a b : Word) : (!Borrows a b false && decide (a = b)) = decide (a = b) := by
  by_cases hab : a = b
  · simp [Borrows, hab]
  · simp [hab]

/-- Where a difference does not overflow, its sign is the signed order (R132, R184). -/
theorem sub_sign_eq_lt {a b : Word} (hlow : -32768 ≤ a.toInt - b.toInt) (hhigh : a.toInt - b.toInt ≤ 32767) :
    (a - b).getLsbD 15 = decide (a.toInt < b.toInt) := by
  have hsub : (a - b).toInt = a.toInt - b.toInt := by
    rw [BitVec.toInt_sub]
    exact Int.bmod_eq_of_le (by omega) (by omega)
  calc (a - b).getLsbD 15 = (a - b).msb := (BitVec.msb_eq_getLsbD_last _).symm
    _ = decide ((a - b).toInt < 0) := BitVec.msb_eq_toInt
    _ = decide (a.toInt < b.toInt) := by
      rw [hsub]
      exact decide_eq_decide.2 sub_neg

/-- The last column of R190, read off the flags a compare writes. -/
theorem Compares.afterCompare {s t : State} {rd : RegNum} {a b : Word} (h : Compares s rd a b t)
    (hlit : s.cfg.jcond = JumpTable.literal) : AfterCompare a b t := by
  obtain ⟨hzf, ⟨r, hdiff, hnf⟩, hbf, -, ⟨-, -, hcfg, -⟩, -⟩ := h
  rw [hdiff.eq_sub] at hnf
  have htaken := State.taken_literal (s := t) (hcfg ▸ hlit)
  simp only [AfterCompare, htaken, State.literalTaken, hzf, hnf, hbf, true_and]
  exact ⟨decide_not.symm, rfl, borrows_and_eq a b, not_borrows_eq_le a b, not_borrows_and_eq a b, sub_sign_eq_lt⟩

/-- Settles O34: each jump by its row of the literal table, and that table on the flags of a compare. -/
theorem literalJumpConditions : Obligations.LiteralJumpConditions := by
  unfold Obligations.LiteralJumpConditions
  intro addr s hwf hupper hlit
  have hgoes := jump_goes hwf hupper addr
  simp only [State.taken_literal hlit] at hgoes
  refine ⟨⟨hgoes .jnz (Bool.not_eq_true' _).to_iff, hgoes .jz Iff.rfl, hgoes .jl Iff.rfl,
    hgoes .jg (Bool.not_eq_true' _).to_iff, hgoes .jb Iff.rfl, hgoes .jbe Bool.and_eq_true_iff,
    hgoes .ja (Bool.not_eq_true' _).to_iff, hgoes .jae (by simp [State.literalTaken])⟩,
    fun rd rs hnone => ?_, fun rd imm => ?_⟩
  · obtain ⟨-, hcmp, -⟩ := cmpResult.1 rd rs s hwf
    exact (hcmp hnone).imp fun t ht => ht.afterCompare hlit
  · obtain ⟨-, hcmp⟩ := cmpResult.2 rd imm s hwf
    exact hcmp.imp fun t ht => ht.afterCompare hlit

/-! ## Branches (R191, R192) -/

/-- Settles O37: the branch to the register or to the immediate, and their words. -/
theorem branchResult : Obligations.BranchResult := by
  unfold Obligations.BranchResult
  intro rs imm s hwf
  exact ⟨wordRr_toNat 0xA#4 0 rs 0x0#4, wordRi_toNat 0xB#4 0 0x0#4 imm,
    fun hnone => State.unprefixed_answers hnone (State.branch_spec hwf (s.reg rs)),
    fun hpending => State.unprefixed_of_ne_none hpending _,
    _, rfl, State.branch_spec hwf (s.immediate imm)⟩

/-- Settles O38: as for `br`, with the link in `rd`; the target is read in the state before the link. -/
theorem branchLinkResult : Obligations.BranchLinkResult := by
  unfold Obligations.BranchLinkResult
  intro rd rs imm s hwf
  refine ⟨?_, ?_, fun hnone => State.unprefixed_answers hnone (State.branchLink_spec hwf rd (s.reg rs)),
    fun hpending => State.unprefixed_of_ne_none hpending _,
    _, rfl, State.branchLink_spec hwf rd (s.immediate imm)⟩
  · have hword := wordRr_toNat 0xA#4 rd rs 0x1#4
    rw [encode, hword, BitVec.toNat_ofNat, BitVec.toNat_ofNat]
    omega
  · have hword := wordRi_toNat 0xB#4 rd 0x1#4 imm
    rw [encode, hword, BitVec.toNat_ofNat, BitVec.toNat_ofNat]
    omega

end Sys2Proof.Machine
end

section
/-! The load and store rules of 44_load_store.md: a load from RAM (R203) and a store to RAM (R204), once for both
segments. -/

namespace Sys2Proof.Machine

/-! ## Loads (R203) -/

/-- A load from RAM through either segment: the word, and the frame. -/
theorem exec_loadOf_ram {s : State} (hwf : s.cfg.wf = true) (g : Seg) (rd rs : RegNum) (imm : BitVec 4) {a : Nat}
    (haddr : s.address g rs imm = a) (hram : classify s.cfg.memMap a = .ram) :
    Answers (exec (loadOf g rd rs imm) s) fun t =>
      t.reg rd = s.ramRead a ∧ WritesOnly rd s t ∧ SameFlags s t := by
  rw [exec_loadOf, haddr, State.load_ram hram]
  exact ⟨_, rfl, State.loaded_spec hwf rd (s.ramRead a)⟩

/-- Settles O40: the two segments of a load from RAM, and their words. -/
theorem loadWordFromRam : Obligations.LoadWordFromRam := by
  unfold Obligations.LoadWordFromRam
  intro rd rs imm s hwf
  exact ⟨wordRri_toNat 0x4#4 rd rs imm, wordRri_toNat 0x5#4 rd rs imm,
    fun _ => exec_loadOf_ram hwf .d rd rs imm,
    fun _ => exec_loadOf_ram hwf .s rd rs imm⟩

/-! ## Stores (R204) -/

/-- The word `v` stands at `a` in RAM, and the rest is unchanged but for pc and the prefix latch. -/
def StoresWord (a : Nat) (v : Word) (s t : State) : Prop :=
  t.ramRead a = v ∧ (∀ b, b ≠ a → t.ramRead b = s.ramRead b) ∧
  t.deviceStores = s.deviceStores ∧ t.envReads = s.envReads ∧
  SameRegs s t ∧ SameFlags s t ∧ SameSystem s t ∧ Retired s t

/-- A write to RAM and the epilogue: the word, and the frame. -/
theorem State.ramWrite_retire_storesWord {s : State} (hwf : s.cfg.wf = true) (hmem : Memory.wf s.dmem) (a : Nat)
    (v : Word) : StoresWord a v s (s.ramWrite a v).retire :=
  ⟨State.ramWrite_ramRead_same hmem a v, fun _ hb => s.ramWrite_ramRead_other v hb, rfl, rfl, fun _ => rfl,
    ⟨rfl, rfl, rfl⟩, ⟨rfl, rfl, rfl, rfl, fun _ => rfl⟩, State.retire_retired hwf rfl rfl⟩

/-- A store to RAM through either segment. -/
theorem exec_storeOf_ram {s : State} (hwf : s.cfg.wf = true) (hmem : Memory.wf s.dmem) (g : Seg) (rd rs : RegNum)
    (imm : BitVec 4) {a : Nat} (haddr : s.address g rs imm = a) (hram : classify s.cfg.memMap a = .ram) :
    Answers (exec (storeOf g rd rs imm) s) (StoresWord a (s.reg rd) s) := by
  rw [exec_storeOf, haddr, State.store_ram hram]
  exact ⟨_, rfl, State.ramWrite_retire_storesWord hwf hmem a (s.reg rd)⟩

/-- Settles O41: the two segments of a store to RAM, and their words. -/
theorem storeWordToRam : Obligations.StoreWordToRam := by
  unfold Obligations.StoreWordToRam
  intro rd rs imm s hwf hmem
  exact ⟨wordRri_toNat 0x6#4 rd rs imm, wordRri_toNat 0x7#4 rd rs imm,
    fun _ => exec_storeOf_ram hwf hmem .d rd rs imm,
    fun _ => exec_storeOf_ram hwf hmem .s rd rs imm⟩

end Sys2Proof.Machine
end

section
/-! The model faults of 60_exceptions.md: the prefix misuse (R230), and the checks of a step in their order with what
each answers (R231, with R227 and R228). -/

namespace Sys2Proof.Machine

/-! ## The prefix misuse (R230) -/

/-- Every instruction of R123's formats makes the prefix check, with some next state behind it. -/
theorem exec_eq_unprefixed {i : Instr} (h : i.takesNoPrefix = true) (s : State) :
    ∃ t, exec i s = s.unprefixed t := by
  cases i with
  | subRr | subcRr | sbbRr | sbbcRr | andRr | andcRr | nandRr | nandcRr | orRr | orcRr | xorRr | xorcRr
  | mullRr | mulhRr | cmpRr | brRr | brlRr => exact ⟨_, rfl⟩
  | jnz | jz | jl | jg | jb | jbe | ja | jae => exact ⟨_, rfl⟩
  | i12 => exact ⟨_, rfl⟩
  | _ => cases h

/-- Settles O12: the prefix check stands before the effect of every rr, bx and i12 instruction. -/
theorem prefixMisuseFaults : Obligations.PrefixMisuseFaults := by
  unfold Obligations.PrefixMisuseFaults
  intro i s hformat hpending
  obtain ⟨t, ht⟩ := exec_eq_unprefixed hformat s
  rw [ht, State.unprefixed_of_ne_none hpending]

/-! ## What the checks before an instruction answer (R231 steps 1 to 3) -/

section Fetch

variable {s : State}

theorem State.fetch_over (hhalt : s.cfg.haltPc = some s.pc) (hnone : s.pfx = none) : s.fetch = .over := by
  simp [State.fetch, hhalt, hnone]

theorem State.fetch_misuse (hhalt : s.cfg.haltPc = some s.pc) (hpending : s.pfx ≠ none) :
    s.fetch = .fault (.prefixMisuse s.pc) := by
  obtain ⟨p, hp⟩ := Option.ne_none_iff_exists'.1 hpending
  simp [State.fetch, hhalt, hp]

theorem State.fetch_outOfRange (hrun : s.cfg.haltPc ≠ some s.pc) (hrange : s.cfg.imemWords ≤ s.pc.toNat) :
    s.fetch = .fault (.fetchOutOfRange s.pc) := by
  simp [State.fetch, State.fetchDecode, hrun, hrange]

theorem State.fetch_illegal (hrun : s.cfg.haltPc ≠ some s.pc) (hrange : s.pc.toNat < s.cfg.imemWords)
    {r : IllegalReason} (hword : s.cfg.codec.decode s.fetchWord = .error r) :
    s.fetch = .fault (.illegalInstruction s.pc s.fetchWord) := by
  simp [State.fetch, State.fetchDecode, hrun, hrange, hword]

theorem State.fetch_decoded (hrun : s.cfg.haltPc ≠ some s.pc) (hrange : s.pc.toNat < s.cfg.imemWords)
    {i : Instr} (hword : s.cfg.codec.decode s.fetchWord = .ok i) : s.fetch = .instr i := by
  simp [State.fetch, State.fetchDecode, hrun, hrange, hword]

/-! ## The step on each of these answers -/

theorem step_over (h : s.fetch = .over) : step s = .refused (.runOver s.pc) := by
  rw [step, h]

theorem step_fault {f : Fault} (h : s.fetch = .fault f) : step s = .fault f := by
  rw [step, h]

theorem step_instr {i : Instr} (h : s.fetch = .instr i) : step s = s.delay i (exec i s) := by
  rw [step, h]

/-- A fault of the fetched instruction is the fault of the step, with or without delay slots. -/
theorem step_exec_fault {i : Instr} {f : Fault} (h : s.fetch = .instr i) (hexec : exec i s = .fault f) :
    step s = .fault f := by
  rw [step_instr h, hexec, State.delay]

end Fetch

/-! ## The order of the checks (R231) -/

/-- Settles O9: each clause is what the fetch answers there and what the step makes of it; the check of step 4 is
the instruction's own. -/
theorem stepChecksInOrder : Obligations.StepChecksInOrder := by
  unfold Obligations.StepChecksInOrder
  intro s
  refine ⟨fun hhalt => ⟨fun hnone => ?runOver, fun hpending => ?haltMisuse⟩,
    fun hrun => ⟨fun hrange => ?outOfRange, fun hrange =>
      ⟨fun r hword => ?illegal, fun i hword => ⟨?misuse, ?execute⟩⟩⟩⟩
  case runOver => simp [step_over (State.fetch_over hhalt hnone)]
  case haltMisuse => exact step_fault (State.fetch_misuse hhalt hpending)
  case outOfRange => exact step_fault (State.fetch_outOfRange hrun hrange)
  case illegal => exact step_fault (State.fetch_illegal hrun hrange hword)
  case misuse =>
    rintro ⟨hpending, hformat⟩
    exact step_exec_fault (State.fetch_decoded hrun hrange hword) (prefixMisuseFaults i s hformat hpending)
  case execute =>
    intro _ hslots
    rw [step_instr (State.fetch_decoded hrun hrange hword), State.delay_zero hslots]

end Sys2Proof.Machine
end

section
/-! The reset rules of 70_reset_and_hazards.md: the values a launch gives the state (R27, R250, R251). -/

namespace Sys2Proof.Machine

/-! ## What reads of a launched machine return -/

@[simp] theorem State.launch_reg (l : Launch) (r : RegNum) : (State.launch l).reg r = l.regs[r] := rfl

@[simp] theorem State.launch_ramRead (l : Launch) (a : Nat) : (State.launch l).ramRead a = Memory.read l.ram a := rfl

/-- The inputs `State.reset` is launched with: the parameters of `Config.atReset`, and zeros and empty memories
where R250 leaves the value free. -/
def Launch.atReset : Launch where
  cfg := Config.atReset
  regs := Vector.replicate 16 0#16
  zf := false
  nf := false
  bf := false
  dsInit := 0#16
  ssInit := 0#16
  program := []
  ram := []

theorem State.reset_eq_launch : State.reset = State.launch Launch.atReset := rfl

/-- Settles O57: each field by its law of the launch; the reset state is the launch with `Launch.atReset`. -/
theorem launchState : Obligations.LaunchState := by
  unfold Obligations.LaunchState
  refine ⟨fun l => ?inputs, ?reset⟩
  case inputs =>
    exact ⟨State.launch_pc l, State.launch_pfx l, State.launch_pending l, State.launch_reg l,
      State.launch_zf l, State.launch_nf l, State.launch_bf l, State.launch_ds l, State.launch_ss l,
      State.launch_ramRead l, fun a => congrArg (Memory.read · a) (State.launch_imem l)⟩
  case reset => exact ⟨Launch.atReset, State.reset_eq_launch⟩

end Sys2Proof.Machine
end

section
/-! The instruction set by families, as `OpKind` names them, and the spec's codec of 30_encoding.md section 4: the word
of each format is read back (R91 to R95), every legal word is written back (R98), and the words that are left are R96's
list. -/

namespace Sys2Proof

/-! ## Families -/

/-- A well-formed instruction is of one of the families of `OpKind`. -/
theorem Instr.wellFormed_cases {motive : (i : Instr) → i.wellFormed = true → Prop}
    (subi : ∀ rd rs imm h, motive (.subi rd rs imm) h) (subic : ∀ rd rs imm h, motive (.subic rd rs imm) h)
    (load : ∀ g rd rs imm h, motive (Machine.loadOf g rd rs imm) h)
    (store : ∀ g rd rs imm h, motive (Machine.storeOf g rd rs imm) h)
    (aluRr : ∀ op rd rs h, motive (AluOp.rr op rd rs) h) (aluRi : ∀ op rd imm h, motive (AluOp.ri op rd imm) h)
    (jump : ∀ c addr h, motive (Cond.jump c addr) h)
    (brRr : ∀ rs h, motive (.brRr rs) h) (brlRr : ∀ rd rs h, motive (.brlRr rd rs) h)
    (brRi : ∀ imm h, motive (.brRi imm) h) (brlRi : ∀ rd imm h, motive (.brlRi rd imm) h)
    (i12 : ∀ p h, motive (.i12 p) h) (i : Instr) (h : i.wellFormed = true) : motive i h := by
  cases i with
  | subi => exact subi _ _ _ h
  | subic => exact subic _ _ _ h
  | lwD => exact load .d _ _ _ h
  | lwS => exact load .s _ _ _ h
  | swD => exact store .d _ _ _ h
  | swS => exact store .s _ _ _ h
  | subRr => exact aluRr .sub _ _ h
  | subcRr => exact aluRr .subc _ _ h
  | sbbRr => exact aluRr .sbb _ _ h
  | sbbcRr => exact aluRr .sbbc _ _ h
  | andRr => exact aluRr .and _ _ h
  | andcRr => exact aluRr .andc _ _ h
  | nandRr => exact aluRr .nand _ _ h
  | nandcRr => exact aluRr .nandc _ _ h
  | orRr => exact aluRr .or _ _ h
  | orcRr => exact aluRr .orc _ _ h
  | xorRr => exact aluRr .xor _ _ h
  | xorcRr => exact aluRr .xorc _ _ h
  | mullRr => exact aluRr .mull _ _ h
  | mulhRr => exact aluRr .mulh _ _ h
  | cmpRr => exact aluRr .cmp _ _ h
  | subRi => exact aluRi .sub _ _ h
  | subcRi => exact aluRi .subc _ _ h
  | sbbRi => exact aluRi .sbb _ _ h
  | sbbcRi => exact aluRi .sbbc _ _ h
  | andRi => exact aluRi .and _ _ h
  | andcRi => exact aluRi .andc _ _ h
  | nandRi => exact aluRi .nand _ _ h
  | nandcRi => exact aluRi .nandc _ _ h
  | orRi => exact aluRi .or _ _ h
  | orcRi => exact aluRi .orc _ _ h
  | xorRi => exact aluRi .xor _ _ h
  | xorcRi => exact aluRi .xorc _ _ h
  | mullRi => exact aluRi .mull _ _ h
  | mulhRi => exact aluRi .mulh _ _ h
  | cmpRi => exact aluRi .cmp _ _ h
  | jnz => exact jump .jnz _ h
  | jz => exact jump .jz _ h
  | jl => exact jump .jl _ h
  | jg => exact jump .jg _ h
  | jb => exact jump .jb _ h
  | jbe => exact jump .jbe _ h
  | ja => exact jump .ja _ h
  | jae => exact jump .jae _ h
  | brRr => exact brRr _ h
  | brlRr => exact brlRr _ _ h
  | brRi => exact brRi _ h
  | brlRi => exact brlRi _ _ h
  | i12 => exact i12 _ h
  | dec | decc | inc | incc | neg | negc => cases h

theorem AluOp.rr_wellFormed (op : AluOp) (rd rs : RegNum) : (op.rr rd rs).wellFormed = true := by
  cases op <;> rfl

theorem AluOp.ri_wellFormed (op : AluOp) (rd : RegNum) (imm : BitVec 4) : (op.ri rd imm).wellFormed = true := by
  cases op <;> rfl

theorem Cond.jump_wellFormed (c : Cond) (addr : BitVec 10) : (c.jump addr).wellFormed = true := by
  cases c <;> rfl

/-! ## Short-hands (R110) -/

theorem Instr.canonical_wellFormed (i : Instr) : i.canonical.wellFormed = true := by
  cases i <;> rfl

theorem encode_canonical (i : Instr) : encode i.canonical = encode i := by
  cases i <;> rfl

theorem Instr.canonical_parts (i : Instr) : i.canonical.parts = i.parts := by
  cases i <;> rfl

theorem Machine.exec_canonical (i : Instr) (s : Machine.State) : Machine.exec i.canonical s = Machine.exec i s := by
  cases i <;> rfl

/-! ## The fields of a word as numbers (R91) -/

theorem fieldMajor_toNat (w : Word) : (fieldMajor w).toNat = w.toNat / 4096 := by
  have := w.isLt
  simp only [fieldMajor, BitVec.extractLsb'_toNat, Nat.shiftRight_eq_div_pow]
  omega

theorem fieldA_toNat (w : Word) : (fieldA w).toNat = w.toNat / 256 % 16 := by
  simp [fieldA, Nat.shiftRight_eq_div_pow]

theorem fieldB_toNat (w : Word) : (fieldB w).toNat = w.toNat / 16 % 16 := by
  simp [fieldB, Nat.shiftRight_eq_div_pow]

theorem fieldC_toNat (w : Word) : (fieldC w).toNat = w.toNat % 16 := by
  simp [fieldC]

theorem fieldImm12_append (m : BitVec 4) (p : BitVec 12) : fieldImm12 (m ++ p) = p :=
  BitVec.extractLsb'_append_eq_right

theorem fieldMajor_append (m : BitVec 4) (p : BitVec 12) : fieldMajor (m ++ p) = m :=
  BitVec.extractLsb'_append_eq_left

theorem fieldOfReg_zero : fieldOfReg 0 = 0#4 := rfl

/-! ## Decoding the word of each format -/

theorem decode_wordRr (op : AluOp) (rd rs : RegNum) : decode (wordRr 0x0#4 rd rs op.fn) = .ok (op.rr rd rs) := by
  simp [decode, decodeAluRr, wordRr_eq]

theorem decode_wordRi (op : AluOp) (rd : RegNum) (imm : BitVec 4) :
    decode (wordRi 0x1#4 rd op.fn imm) = .ok (op.ri rd imm) := by
  simp [decode, decodeAluRi, wordRi_eq]

/-- Both major opcodes of the conditional jumps lead to the jump of the condition code (R94). -/
theorem decode_wordBx (c : Cond) (addr : BitVec 10) : decode (wordBx c addr) = .ok (c.jump addr) := by
  have hcc := c.cc.isLt
  have hmajor := fieldMajor_wordBx c addr
  obtain h | h : (fieldMajor (wordBx c addr)).toNat = 8 ∨ (fieldMajor (wordBx c addr)).toNat = 9 := by omega
  · simp [decode, h]
  · simp [decode, h]

/-- Settles O1: each family by the word of its format. -/
theorem decodeOfEncode : Obligations.DecodeOfEncode := by
  unfold Obligations.DecodeOfEncode
  intro i hwf
  cases i, hwf using Instr.wellFormed_cases with
  | subi | subic => simp [encode, decode, wordRri_eq]
  | load g | store g => cases g <;> simp [encode, decode, wordRri_eq, Machine.loadOf, Machine.storeOf]
  | aluRr op rd rs => rw [Machine.encode_aluRr, decode_wordRr]
  | aluRi op rd imm => rw [Machine.encode_aluRi, decode_wordRi]
  | jump c addr => rw [Machine.encode_jump, decode_wordBx]
  | brRr | brlRr => simp [encode, decode, decodeBranchRr, wordRr_eq, fieldOfReg_zero]
  | brRi | brlRi => simp [encode, decode, decodeBranchRi, wordRi_eq, fieldOfReg_zero]
  | i12 p => simp [encode, decode, fieldMajor_append, fieldImm12_append]

/-! ## The word of each decoded instruction -/

/-- A word is its major opcode followed by its other three fields. -/
theorem wordOf_of_major {w : Word} {m : BitVec 4} (h : (fieldMajor w).toNat = m.toNat) :
    wordOf m (fieldA w) (fieldB w) (fieldC w) = w := by
  rw [← BitVec.eq_of_toNat_eq h, wordOf_fields]

theorem wordBx_of_major {w : Word} (h : (fieldMajor w).toNat = 8 ∨ (fieldMajor w).toNat = 9) :
    wordBx (Cond.ofCc (fieldCc w)) (fieldAddr10 w) = w := by
  rw [fieldMajor_toNat] at h
  apply BitVec.eq_of_toNat_eq
  simp only [wordBx_toNat, Cond.cc_ofCc, fieldCc, fieldAddr10, BitVec.extractLsb'_toNat, Nat.shiftRight_eq_div_pow]
  omega

theorem wordI12_of_major {w : Word} (h : (fieldMajor w).toNat = 15) : encode (.i12 (fieldImm12 w)) = w := by
  rw [fieldMajor_toNat] at h
  apply BitVec.eq_of_toNat_eq
  simp only [wordI12_toNat, fieldImm12, BitVec.extractLsb'_toNat, Nat.shiftRight_eq_div_pow]
  omega

theorem decodeAluRr_ok {w : Word} {i : Instr} (h : decodeAluRr w = .ok i) :
    ∃ op : AluOp, op.fn = fieldC w ∧ i = op.rr (regOfField (fieldA w)) (regOfField (fieldB w)) := by
  unfold decodeAluRr at h
  split at h
  · next op hop =>
    cases h
    exact ⟨op, AluOp.fn_of_ofFn hop, rfl⟩
  · cases h

theorem decodeAluRi_ok {w : Word} {i : Instr} (h : decodeAluRi w = .ok i) :
    ∃ op : AluOp, op.fn = fieldB w ∧ i = op.ri (regOfField (fieldA w)) (fieldC w) := by
  unfold decodeAluRi at h
  split at h
  · next op hop =>
    cases h
    exact ⟨op, AluOp.fn_of_ofFn hop, rfl⟩
  · cases h

theorem decodeBranchRr_ok {w : Word} {i : Instr} (h : decodeBranchRr w = .ok i) :
    (fieldC w = 0x0#4 ∧ fieldA w = 0#4 ∧ i = .brRr (regOfField (fieldB w))) ∨
      (fieldC w = 0x1#4 ∧ i = .brlRr (regOfField (fieldA w)) (regOfField (fieldB w))) := by
  unfold decodeBranchRr at h
  split at h
  · next hfn =>
    split at h
    · next hrd =>
      cases h
      exact .inl ⟨BitVec.eq_of_toNat_eq hfn, hrd, rfl⟩
    · cases h
  · next hfn =>
    cases h
    exact .inr ⟨BitVec.eq_of_toNat_eq hfn, rfl⟩
  · cases h

theorem decodeBranchRi_ok {w : Word} {i : Instr} (h : decodeBranchRi w = .ok i) :
    (fieldB w = 0x0#4 ∧ fieldA w = 0#4 ∧ i = .brRi (fieldC w)) ∨
      (fieldB w = 0x1#4 ∧ i = .brlRi (regOfField (fieldA w)) (fieldC w)) := by
  unfold decodeBranchRi at h
  split at h
  · next hfn =>
    split at h
    · next hrd =>
      cases h
      exact .inl ⟨BitVec.eq_of_toNat_eq hfn, hrd, rfl⟩
    · cases h
  · next hfn =>
    cases h
    exact .inr ⟨BitVec.eq_of_toNat_eq hfn, rfl⟩
  · cases h

/-- Settles O2: by the major opcode of the word, whose other fields the instruction carries. -/
theorem encodeOfDecode : Obligations.EncodeOfDecode := by
  unfold Obligations.EncodeOfDecode
  intro w i h
  unfold decode at h
  split at h
  case h_1 hmajor =>
    obtain ⟨op, hfn, rfl⟩ := decodeAluRr_ok h
    rw [Machine.encode_aluRr, hfn]
    exact ⟨wordOf_of_major hmajor, op.rr_wellFormed _ _⟩
  case h_2 hmajor =>
    obtain ⟨op, hfn, rfl⟩ := decodeAluRi_ok h
    rw [Machine.encode_aluRi, hfn]
    exact ⟨wordOf_of_major hmajor, op.ri_wellFormed _ _⟩
  case h_9 hmajor | h_10 hmajor =>
    cases h
    rw [Machine.encode_jump]
    exact ⟨wordBx_of_major (by simp [hmajor]), Cond.jump_wellFormed _ _⟩
  case h_11 hmajor =>
    have hw := wordOf_of_major (m := 0xA#4) hmajor
    obtain ⟨hfn, hrd, rfl⟩ | ⟨hfn, rfl⟩ := decodeBranchRr_ok h
    · rw [hfn, hrd] at hw
      exact ⟨hw, rfl⟩
    · rw [hfn] at hw
      exact ⟨hw, rfl⟩
  case h_12 hmajor =>
    have hw := wordOf_of_major (m := 0xB#4) hmajor
    obtain ⟨hfn, hrd, rfl⟩ | ⟨hfn, rfl⟩ := decodeBranchRi_ok h
    · rw [hfn, hrd] at hw
      exact ⟨hw, rfl⟩
    · rw [hfn] at hw
      exact ⟨hw, rfl⟩
  case h_13 | h_14 | h_15 => cases h
  case h_16 =>
    cases h
    refine ⟨wordI12_of_major ?_, rfl⟩
    have := (fieldMajor w).isLt
    simp only [imp_false] at *
    omega
  all_goals
    next hmajor =>
    cases h
    exact ⟨wordOf_of_major hmajor, rfl⟩

/-! ## The words that are left (R96) -/

theorem AluOp.ofFn_eq_none (f : BitVec 4) : AluOp.ofFn f = none ↔ f.toNat = 0xF := by
  revert f
  decide

theorem decodeAluRr_error (w : Word) : (∃ r, decodeAluRr w = .error r) ↔ w.toNat % 16 = 0xF := by
  rw [← fieldC_toNat, ← AluOp.ofFn_eq_none]
  cases h : AluOp.ofFn (fieldC w) <;> simp [decodeAluRr, h]

theorem decodeAluRi_error (w : Word) : (∃ r, decodeAluRi w = .error r) ↔ w.toNat / 16 % 16 = 0xF := by
  rw [← fieldB_toNat, ← AluOp.ofFn_eq_none]
  cases h : AluOp.ofFn (fieldB w) <;> simp [decodeAluRi, h]

theorem fieldA_eq_zero (w : Word) : fieldA w = 0#4 ↔ w.toNat / 256 % 16 = 0 := by
  rw [← BitVec.toNat_inj, fieldA_toNat, BitVec.toNat_zero]

theorem decodeBranchRr_error (w : Word) : (∃ r, decodeBranchRr w = .error r) ↔
    0x2 ≤ w.toNat % 16 ∨ (w.toNat % 16 = 0x0 ∧ w.toNat / 256 % 16 ≠ 0) := by
  rw [← fieldC_toNat, ne_eq, ← fieldA_eq_zero]
  unfold decodeBranchRr
  split
  · next h => split <;> simp_all
  · next h => simp [h]
  · next h0 h1 =>
    simp only [imp_false] at h0 h1
    exact iff_of_true ⟨_, rfl⟩ (.inl (by omega))

theorem decodeBranchRi_error (w : Word) : (∃ r, decodeBranchRi w = .error r) ↔
    0x2 ≤ w.toNat / 16 % 16 ∨ (w.toNat / 16 % 16 = 0x0 ∧ w.toNat / 256 % 16 ≠ 0) := by
  rw [← fieldB_toNat, ne_eq, ← fieldA_eq_zero]
  unfold decodeBranchRi
  split
  · next h => split <;> simp_all
  · next h => simp [h]
  · next h0 h1 =>
    simp only [imp_false] at h0 h1
    exact iff_of_true ⟨_, rfl⟩ (.inl (by omega))

/-- Settles O3: by the major opcode, with the errors of the four formats that have function codes. -/
theorem illegalWords : Obligations.IllegalWords := by
  unfold Obligations.IllegalWords
  intro w
  rw [← fieldMajor_toNat]
  unfold decode
  split
  case h_1 hmajor => rw [decodeAluRr_error, hmajor]; omega
  case h_2 hmajor => rw [decodeAluRi_error, hmajor]; omega
  case h_11 hmajor => rw [decodeBranchRr_error, hmajor]; omega
  case h_12 hmajor => rw [decodeBranchRi_error, hmajor]; omega
  case h_13 hmajor | h_14 hmajor | h_15 hmajor => simp [hmajor]
  case h_16 =>
    have := (fieldMajor w).isLt
    simp only [reduceCtorEq, exists_false, false_iff, imp_false] at *
    omega
  all_goals
    next hmajor => simp [hmajor]

/-! ## Short-hands and written words -/

/-- The word of any instruction decodes to what it stands for in the machine (R98). -/
theorem decode_encode (i : Instr) : decode (encode i) = .ok i.canonical := by
  rw [← encode_canonical]
  exact decodeOfEncode i.canonical i.canonical_wellFormed

/-- Settles O6: the word and the meaning of a short-hand are those of its expansion. -/
theorem shorthandsAreTheirExpansions : Obligations.ShorthandsAreTheirExpansions := by
  unfold Obligations.ShorthandsAreTheirExpansions
  have key (i : Instr) (s : Machine.State) :
      decode (encode i) = .ok i.canonical ∧ Machine.exec i s = Machine.exec i.canonical s :=
    ⟨decode_encode i, (Machine.exec_canonical i s).symm⟩
  exact fun rd s => ⟨key (.dec rd) s, key (.decc rd) s, key (.inc rd) s, key (.incc rd) s, key (.neg rd) s,
    key (.negc rd) s⟩

/-- Settles O7: each word is that of its instruction. -/
theorem writtenWordsDecode : Obligations.WrittenWordsDecode := by
  unfold Obligations.WrittenWordsDecode
  exact ⟨decodeOfEncode (.subRr 0 2) rfl, decodeOfEncode (.subi 0 0 1#4) rfl, decodeOfEncode (.subRi 0 1#4) rfl,
    decodeOfEncode (.i12 0x123#12) rfl, decodeOfEncode (.lwD 0 1 3#4) rfl, decodeOfEncode (.andRi 1 0xC#4) rfl,
    decodeOfEncode (.cmpRi 2 2#4) rfl, decodeOfEncode (.cmpRr 3 15) rfl, decodeOfEncode (.mullRi 0 4#4) rfl,
    decodeOfEncode (.jbe 0x2A#10) rfl, decodeOfEncode (.brlRr 15 4) rfl, decodeOfEncode (.swS 2 14 0#4) rfl⟩

end Sys2Proof
end

section
/-! Codecs that are tables of rows (log 24): in a table whose rows are apart, the order of the rows does not matter, so
decoding and encoding undo each other; and the spec's codec is such a table (R91 to R95). -/

namespace Sys2Proof

/-! ## Tables of rows that are apart -/

/-- No word is held by two rows that are apart. -/
theorem CodecRow.apart_not_holds {r q : CodecRow} {w : Word} (h : r.apart q = true) (hr : r.holds w = true) :
    q.holds w = false := by
  simp only [CodecRow.apart, CodecRow.holds, Bool.and_eq_true, bne_iff_ne, beq_iff_eq, beq_eq_false_iff_ne] at *
  rintro hq
  apply h.2
  rw [← hr, ← hq]
  ext p hp
  simp only [BitVec.getElem_and, BitVec.getElem_xor, BitVec.getElem_zero]
  cases w[p] <;> cases r.mask[p] <;> cases q.mask[p] <;> rfl

theorem CodecRow.apart_kind_ne {r q : CodecRow} (h : r.apart q = true) : r.kind ≠ q.kind := by
  simp only [CodecRow.apart, Bool.and_eq_true, bne_iff_ne] at h
  exact h.1

/-- A word that decodes is read by a row that holds it. -/
theorem decodeRows_ok {w : Word} {i : Instr} {table : List CodecRow} (h : decodeRows w table = .ok i) :
    ∃ r ∈ table, r.holds w = true ∧ r.read w = i := by
  induction table with
  | nil => cases h
  | cons r rest ih =>
    rw [decodeRows] at h
    split at h
    · next hr =>
      cases h
      exact ⟨r, List.mem_cons_self, hr, rfl⟩
    · obtain ⟨q, hq, hread⟩ := ih h
      exact ⟨q, List.mem_cons_of_mem r hq, hread⟩

/-- An instruction that has a word has it from a row of its kind. -/
theorem encodeRows_some {p : Parts} {w : Word} {table : List CodecRow} (h : encodeRows p table = some w) :
    ∃ r ∈ table, r.kind = p.kind ∧ r.write p = w := by
  induction table with
  | nil => cases h
  | cons r rest ih =>
    rw [encodeRows] at h
    split at h
    · next hr =>
      cases h
      exact ⟨r, List.mem_cons_self, hr, rfl⟩
    · obtain ⟨q, hq, hwrite⟩ := ih h
      exact ⟨q, List.mem_cons_of_mem r hq, hwrite⟩

/-- The row that holds a word reads it, wherever it stands in the table. -/
theorem decodeRows_of_holds {w : Word} {r : CodecRow} {table : List CodecRow}
    (hapart : table.Pairwise fun r q => r.apart q = true) (hmem : r ∈ table) (hr : r.holds w = true) :
    decodeRows w table = .ok (r.read w) := by
  induction table with
  | nil => cases hmem
  | cons q rest ih =>
    rw [List.pairwise_cons] at hapart
    obtain rfl | hmem := List.mem_cons.1 hmem
    · rw [decodeRows, if_pos hr]
    · have hq : q.holds w ≠ true := fun hq => by
        have := CodecRow.apart_not_holds (hapart.1 r hmem) hq
        simp [hr] at this
      rw [decodeRows, if_neg hq, ih hapart.2 hmem]

/-- The row of a kind writes its instructions, wherever it stands in the table. -/
theorem encodeRows_of_kind {p : Parts} {r : CodecRow} {table : List CodecRow}
    (hapart : table.Pairwise fun r q => r.apart q = true) (hmem : r ∈ table) (hr : r.kind = p.kind) :
    encodeRows p table = some (r.write p) := by
  induction table with
  | nil => cases hmem
  | cons q rest ih =>
    rw [List.pairwise_cons] at hapart
    obtain rfl | hmem := List.mem_cons.1 hmem
    · rw [encodeRows, if_pos hr]
    · rw [encodeRows, if_neg (hr ▸ CodecRow.apart_kind_ne (hapart.1 r hmem)), ih hapart.2 hmem]

theorem Codec.rows_wf_iff (table : List CodecRow) : (Codec.rows table).wf = true ↔
    (∀ r ∈ table, r.wf = true) ∧ table.Pairwise fun r q => r.apart q = true := by
  simp [Codec.wf]

/-! ## The round trips -/

/-- The fields a row reads, as parts of an instruction. -/
def CodecRow.parts (r : CodecRow) (w : Word) : Parts :=
  ⟨r.kind, gatherField w r.rd, gatherField w r.rs, gatherField w r.imm⟩

/-- What a row reads has the parts that stand in the word, and is no short-hand. -/
theorem CodecRow.read_parts {r : CodecRow} (h : CodecRow.Ok r) (w : Word) :
    (r.read w).parts = r.parts w ∧ (r.read w).wellFormed = true := by
  refine Parts.parts_instr (r.parts w) ?_ ?_ ?_
  · exact h.rd ▸ gatherField_lt w r.rd
  · exact h.rs ▸ gatherField_lt w r.rs
  · exact h.imm ▸ gatherField_lt w r.imm

/-- A row of the kind of a well-formed instruction reads it back from the word it writes. -/
theorem CodecRow.read_write_parts {r : CodecRow} (h : CodecRow.Ok r) {i : Instr} (hwf : i.wellFormed = true)
    (hkind : r.kind = i.parts.kind) : r.read (r.write i.parts) = i := by
  obtain ⟨hrd, hrs, himm, hinstr⟩ := i.instr_parts
  rw [CodecRow.read_write h i.parts hkind hrd hrs himm, hinstr hwf]

/-- Settles O5: the spec's codec by its own round trips, and a table by those of the one row that has the word or the
kind. -/
theorem codecRoundTrip : Obligations.CodecRoundTrip := by
  unfold Obligations.CodecRoundTrip
  intro c hc
  cases c with
  | specAssigned =>
    refine ⟨fun i w hwf h => ?_, fun w i h => ?_⟩
    · cases h
      exact decodeOfEncode i hwf
    · obtain ⟨hw, hwf⟩ := encodeOfDecode w i h
      exact ⟨congrArg some hw, hwf⟩
  | rows table =>
    obtain ⟨hrows, hapart⟩ := (Codec.rows_wf_iff table).1 hc
    refine ⟨fun i w hwf h => ?_, fun w i h => ?_⟩
    · obtain ⟨r, hmem, hkind, rfl⟩ := encodeRows_some h
      have hok := CodecRow.ok_of_wf (hrows r hmem)
      rw [Codec.decode, decodeRows_of_holds hapart hmem (CodecRow.write_holds hok _),
        CodecRow.read_write_parts hok hwf hkind]
    · obtain ⟨r, hmem, hholds, rfl⟩ := decodeRows_ok h
      have hok := CodecRow.ok_of_wf (hrows r hmem)
      obtain ⟨hparts, hwf⟩ := CodecRow.read_parts hok w
      have hkind : r.kind = (r.read w).parts.kind := by rw [hparts, CodecRow.parts]
      refine ⟨?_, hwf⟩
      rw [Codec.encode, encodeRows_of_kind hapart hmem hkind, hparts]
      exact congrArg some (CodecRow.write_fields hok w hholds)

/-! ## The spec's rows -/

/-- The bits `p + n - 1` down to `p`. -/
def bitRun (p : Nat) : Nat → List Nat
  | 0 => []
  | n + 1 => (p + n) :: bitRun p n

theorem bitRun_length (p n : Nat) : (bitRun p n).length = n := by
  induction n with
  | zero => rfl
  | succ n ih => rw [bitRun, List.length_cons, ih]

/-- A field of adjacent bits is those bits of the word. -/
theorem gatherField_bitRun (w : Word) (p n : Nat) : gatherField w (bitRun p n) = (w.extractLsb' p n).toNat := by
  rw [BitVec.extractLsb'_toNat, Nat.shiftRight_eq_div_pow]
  induction n with
  | zero => simp [bitRun, gatherField, Nat.mod_one]
  | succ n ih =>
    rw [bitRun, gatherField, bitRun_length, ih, Nat.mod_pow_succ, Nat.div_div_eq_div_mul, ← pow_add,
      ← Nat.toNat_testBit, BitVec.testBit_toNat]
    ring

theorem gatherField_bitsA (w : Word) : gatherField w bitsA = (fieldA w).toNat := gatherField_bitRun w 8 4

theorem gatherField_bitsB (w : Word) : gatherField w bitsB = (fieldB w).toNat := gatherField_bitRun w 4 4

theorem gatherField_bitsC (w : Word) : gatherField w bitsC = (fieldC w).toNat := gatherField_bitRun w 0 4

theorem gatherField_addr10 (w : Word) : gatherField w ([9, 8] ++ bitsB ++ bitsC) = (fieldAddr10 w).toNat :=
  gatherField_bitRun w 0 10

theorem gatherField_imm12 (w : Word) : gatherField w (bitsA ++ bitsB ++ bitsC) = (fieldImm12 w).toNat :=
  gatherField_bitRun w 0 12

theorem wordOf_and (m a b c m' a' b' c' : BitVec 4) :
    wordOf m a b c &&& wordOf m' a' b' c' = wordOf (m &&& m') (a &&& a') (b &&& b') (c &&& c') :=
  BitVec.and_append.trans (congrArg (· ++ (c &&& c'))
    (BitVec.and_append.trans (congrArg (· ++ (b &&& b')) BitVec.and_append)))

/-- The row `r` holds the word of `i` and reads the parts of `i` in it. -/
def CodecRow.Matches (r : CodecRow) (i : Instr) : Prop := r.holds (encode i) = true ∧ r.parts (encode i) = i.parts

/-- A mask of ones leaves a field alone. -/
theorem and_nibble (f : BitVec 4) : f &&& 0xF#4 = f := BitVec.and_allOnes

theorem nibble_append_zero (m : BitVec 4) : m ++ 0#12 = wordOf m 0#4 0#4 0#4 := by
  revert m
  decide

theorem zero_append_nibble (f : BitVec 4) : 0#12 ++ f = wordOf 0#4 0#4 0#4 f := by
  revert f
  decide

theorem ri_value (f : BitVec 4) : 0x10#8 ++ f ++ 0#4 = wordOf 1#4 0#4 f 0#4 := by
  revert f
  decide

/-- A row holds a word whose fields agree with its value under the fields of its mask. -/
theorem CodecRow.holds_wordOf {r : CodecRow} {m a b c mm ma mb mc : BitVec 4} (hmask : r.mask = wordOf mm ma mb mc)
    (hvalue : r.value = wordOf (m &&& mm) (a &&& ma) (b &&& mb) (c &&& mc)) : r.holds (wordOf m a b c) = true := by
  rw [CodecRow.holds, hmask, hvalue, wordOf_and, beq_self_eq_true]

/-! ### A row of each format -/

theorem specRri_matches {i : Instr} {kind : OpKind} {major : BitVec 4} {rd rs : RegNum} {imm : BitVec 4}
    (hword : encode i = wordRri major rd rs imm) (hparts : i.parts = ⟨kind, rd.val, rs.val, imm.toNat⟩) :
    (specRri kind major).Matches i := by
  rw [CodecRow.Matches, hword, hparts, wordRri_eq]
  refine ⟨CodecRow.holds_wordOf (mm := 0xF#4) (ma := 0#4) (mb := 0#4) (mc := 0#4) rfl ?_, ?_⟩
  · simp [specRri, nibble_append_zero, and_nibble]
  · simp [CodecRow.parts, specRri, gatherField_bitsA, gatherField_bitsB, gatherField_bitsC, fieldOfReg]

theorem specRr_matches (op : AluOp) (rd rs : RegNum) : (specRr op).Matches (op.rr rd rs) := by
  have hparts : (op.rr rd rs).parts = ⟨.aluRr op, rd.val, rs.val, 0⟩ := by cases op <;> rfl
  rw [CodecRow.Matches, Machine.encode_aluRr, hparts, wordRr_eq]
  refine ⟨CodecRow.holds_wordOf (mm := 0xF#4) (ma := 0#4) (mb := 0#4) (mc := 0xF#4) rfl ?_, ?_⟩
  · simp [specRr, zero_append_nibble, and_nibble]
  · simp [CodecRow.parts, specRr, gatherField_bitsA, gatherField_bitsB, gatherField, fieldOfReg]

theorem specRi_matches (op : AluOp) (rd : RegNum) (imm : BitVec 4) : (specRi op).Matches (op.ri rd imm) := by
  have hparts : (op.ri rd imm).parts = ⟨.aluRi op, rd.val, 0, imm.toNat⟩ := by cases op <;> rfl
  rw [CodecRow.Matches, Machine.encode_aluRi, hparts, wordRi_eq]
  refine ⟨CodecRow.holds_wordOf (mm := 0xF#4) (ma := 0#4) (mb := 0xF#4) (mc := 0#4) rfl ?_, ?_⟩
  · simp [specRi, ri_value, and_nibble]
  · simp [CodecRow.parts, specRi, gatherField_bitsA, gatherField_bitsC, gatherField, fieldOfReg]

theorem specJump_matches (c : Cond) (addr : BitVec 10) : (specJump c).Matches (c.jump addr) := by
  have hparts : (c.jump addr).parts = ⟨.jump c, 0, 0, addr.toNat⟩ := by cases c <;> rfl
  rw [CodecRow.Matches, Machine.encode_jump, hparts]
  refine ⟨beq_iff_eq.2 ?_, ?_⟩
  · have hmask : wordBx c addr &&& 0b111#3 ++ 0b111#3 ++ 0#10 =
        (0b100#3 &&& 0b111#3) ++ (c.cc &&& 0b111#3) ++ (addr &&& 0#10) :=
      BitVec.and_append.trans (congrArg (· ++ (addr &&& 0#10)) BitVec.and_append)
    have hcc : c.cc &&& 0b111#3 = c.cc := BitVec.and_allOnes
    rw [hcc, BitVec.and_zero] at hmask
    exact hmask
  · simp only [CodecRow.parts, specJump, gatherField_addr10, fieldAddr10_wordBx, gatherField]

/-- The one instruction without fields but the 12-bit constant. -/
theorem specI12_matches (p : BitVec 12) :
    CodecRow.Matches ⟨.i12, 0xF000#16, 0xF000#16, [], [], bitsA ++ bitsB ++ bitsC⟩ (.i12 p) := by
  refine ⟨beq_iff_eq.2 ?_, ?_⟩
  · have hmask : encode (.i12 p) &&& 0xF#4 ++ 0#12 = (0xF#4 &&& 0xF#4) ++ (p &&& 0#12) := BitVec.and_append
    rw [BitVec.and_zero] at hmask
    exact hmask
  · simp only [CodecRow.parts, gatherField_imm12, encode, fieldImm12_append, gatherField, Instr.parts]

theorem specBrRr_matches (rs : RegNum) :
    CodecRow.Matches ⟨.brRr, 0xFF0F#16, 0xA000#16, [], bitsB, []⟩ (.brRr rs) := by
  rw [CodecRow.Matches, encode, wordRr_eq]
  refine ⟨CodecRow.holds_wordOf (mm := 0xF#4) (ma := 0xF#4) (mb := 0#4) (mc := 0xF#4) rfl ?_, ?_⟩
  · rw [BitVec.and_zero]
    rfl
  · simp [CodecRow.parts, gatherField_bitsB, gatherField, Instr.parts, fieldOfReg]

theorem specBrlRr_matches (rd rs : RegNum) :
    CodecRow.Matches ⟨.brlRr, 0xF00F#16, 0xA001#16, bitsA, bitsB, []⟩ (.brlRr rd rs) := by
  rw [CodecRow.Matches, encode, wordRr_eq]
  refine ⟨CodecRow.holds_wordOf (mm := 0xF#4) (ma := 0#4) (mb := 0#4) (mc := 0xF#4) rfl ?_, ?_⟩
  · rw [BitVec.and_zero, BitVec.and_zero]
    rfl
  · simp [CodecRow.parts, gatherField_bitsA, gatherField_bitsB, gatherField, Instr.parts, fieldOfReg]

theorem specBrRi_matches (imm : BitVec 4) :
    CodecRow.Matches ⟨.brRi, 0xFFF0#16, 0xB000#16, [], [], bitsC⟩ (.brRi imm) := by
  rw [CodecRow.Matches, encode, wordRi_eq]
  refine ⟨CodecRow.holds_wordOf (mm := 0xF#4) (ma := 0xF#4) (mb := 0xF#4) (mc := 0#4) rfl ?_, ?_⟩
  · rw [BitVec.and_zero]
    rfl
  · simp [CodecRow.parts, gatherField_bitsC, gatherField, Instr.parts]

theorem specBrlRi_matches (rd : RegNum) (imm : BitVec 4) :
    CodecRow.Matches ⟨.brlRi, 0xF0F0#16, 0xB010#16, bitsA, [], bitsC⟩ (.brlRi rd imm) := by
  rw [CodecRow.Matches, encode, wordRi_eq]
  refine ⟨CodecRow.holds_wordOf (mm := 0xF#4) (ma := 0#4) (mb := 0xF#4) (mc := 0#4) rfl ?_, ?_⟩
  · rw [BitVec.and_zero, BitVec.and_zero]
    rfl
  · simp [CodecRow.parts, gatherField_bitsA, gatherField_bitsC, gatherField, Instr.parts, fieldOfReg]

/-! ### The table -/

theorem specRr_mem (op : AluOp) : specRr op ∈ specRows := by
  cases op <;> decide

theorem specRi_mem (op : AluOp) : specRi op ∈ specRows := by
  cases op <;> decide

theorem specJump_mem (c : Cond) : specJump c ∈ specRows := by
  cases c <;> decide

/-- Every well-formed instruction has its row. -/
theorem specRows_match (i : Instr) (hwf : i.wellFormed = true) : ∃ r ∈ specRows, r.Matches i := by
  cases i, hwf using Instr.wellFormed_cases with
  | subi => exact ⟨_, by decide, specRri_matches (kind := .subi) rfl rfl⟩
  | subic => exact ⟨_, by decide, specRri_matches (kind := .subic) rfl rfl⟩
  | load g =>
    cases g
    · exact ⟨_, by decide, specRri_matches (kind := .lw .d) rfl rfl⟩
    · exact ⟨_, by decide, specRri_matches (kind := .lw .s) rfl rfl⟩
  | store g =>
    cases g
    · exact ⟨_, by decide, specRri_matches (kind := .sw .d) rfl rfl⟩
    · exact ⟨_, by decide, specRri_matches (kind := .sw .s) rfl rfl⟩
  | aluRr op rd rs => exact ⟨_, specRr_mem op, specRr_matches op rd rs⟩
  | aluRi op rd imm => exact ⟨_, specRi_mem op, specRi_matches op rd imm⟩
  | jump c addr => exact ⟨_, specJump_mem c, specJump_matches c addr⟩
  | brRr rs => exact ⟨_, by decide, specBrRr_matches rs⟩
  | brlRr rd rs => exact ⟨_, by decide, specBrlRr_matches rd rs⟩
  | brRi imm => exact ⟨_, by decide, specBrRi_matches imm⟩
  | brlRi rd imm => exact ⟨_, by decide, specBrlRi_matches rd imm⟩
  | i12 p => exact ⟨_, by decide, specI12_matches p⟩

theorem specRows_wf : (Codec.rows specRows).wf = true := by decide

/-- The rows give every instruction the word of R91 to R95. -/
theorem specRows_encode (i : Instr) : (Codec.rows specRows).encode i = some (encode i) := by
  obtain ⟨hrows, hapart⟩ := (Codec.rows_wf_iff specRows).1 specRows_wf
  obtain ⟨r, hmem, hholds, hparts⟩ := specRows_match i.canonical i.canonical_wellFormed
  have hkind : r.kind = i.canonical.parts.kind := by rw [← hparts, CodecRow.parts]
  rw [Codec.encode, ← Instr.canonical_parts, encodeRows_of_kind hapart hmem hkind, ← hparts]
  exact congrArg some ((CodecRow.write_fields (CodecRow.ok_of_wf (hrows r hmem)) _ hholds).trans (encode_canonical i))

/-- Settles O4: the words agree, and in both codecs a word decodes to the instruction it is the word of. -/
theorem specCodecAsRows : Obligations.SpecCodecAsRows := by
  unfold Obligations.SpecCodecAsRows
  obtain ⟨hdecode, hencode⟩ := codecRoundTrip _ specRows_wf
  refine ⟨specRows_wf, fun w i => ⟨fun h => ?_, fun h => ?_⟩, specRows_encode⟩
  · obtain ⟨hw, hwf⟩ := hencode w i h
    rw [specRows_encode] at hw
    cases hw
    exact decodeOfEncode i hwf
  · obtain ⟨rfl, hwf⟩ := encodeOfDecode w i h
    exact hdecode i _ hwf (specRows_encode i)

end Sys2Proof
end

section
/-! The data side of an instruction: which instructions reach data memory and the devices (R36, R63, R229), and what
they do at each class of address. -/

namespace Sys2Proof

theorem Instr.canonical_stores (i : Instr) : i.canonical.stores = i.stores := by
  cases i <;> rfl

theorem Instr.canonical_loads (i : Instr) : i.canonical.loads = i.loads := by
  cases i <;> rfl

theorem Instr.stores_iff (i : Instr) : i.stores = true ↔ ∃ g rd rs imm, i = Machine.storeOf g rd rs imm := by
  constructor
  · intro h
    cases i with
    | swD rd rs imm => exact ⟨.d, rd, rs, imm, rfl⟩
    | swS rd rs imm => exact ⟨.s, rd, rs, imm, rfl⟩
    | _ => cases h
  · rintro ⟨g, rd, rs, imm, rfl⟩
    cases g <;> rfl

end Sys2Proof

namespace Sys2Proof.Machine

/-! ## Loads and stores alone reach data memory and the devices -/

@[simp] theorem loadOf_loads (g : Seg) (rd rs : RegNum) (imm : BitVec 4) : (loadOf g rd rs imm).loads = true := by
  cases g <;> rfl

@[simp] theorem storeOf_stores (g : Seg) (rd rs : RegNum) (imm : BitVec 4) : (storeOf g rd rs imm).stores = true := by
  cases g <;> rfl

theorem State.alu_data (s : State) (op : AluOp) (rd : RegNum) (ab : Inputs) :
    (s.alu op rd ab).dmem = s.dmem ∧ (s.alu op rd ab).deviceStores = s.deviceStores ∧
      (s.alu op rd ab).envReads = s.envReads := by
  cases op <;> exact ⟨rfl, rfl, rfl⟩

/-- What a well-formed instruction that goes on leaves of data memory and of the exchange with the devices. -/
theorem exec_data {i : Instr} (hwf : i.wellFormed = true) {s t : State} (h : exec i s = .next t) :
    (i.stores = false → t.dmem = s.dmem ∧ t.deviceStores = s.deviceStores) ∧
      (i.loads = false → t.envReads = s.envReads) := by
  cases i, hwf using Instr.wellFormed_cases with
  | load g =>
    rw [exec_loadOf] at h
    obtain ⟨v, n, rfl, -⟩ := State.load_next h
    exact ⟨fun _ => ⟨rfl, rfl⟩, fun hloads => by simp at hloads⟩
  | store g =>
    rw [exec_storeOf] at h
    refine ⟨fun hstores => by simp at hstores, fun _ => ?_⟩
    obtain ⟨-, rfl⟩ | ⟨-, rfl⟩ := State.store_next h <;> rfl
  | aluRr op rd rs =>
    rw [exec_aluRr] at h
    obtain ⟨-, rfl⟩ := State.unprefixed_next h
    obtain ⟨hdmem, hstores, hreads⟩ := s.alu_data op rd (s.rrInputs rd rs)
    exact ⟨fun _ => ⟨hdmem, hstores⟩, fun _ => hreads⟩
  | aluRi op rd imm =>
    rw [exec_aluRi] at h
    cases h
    obtain ⟨hdmem, hstores, hreads⟩ := s.alu_data op rd (s.riInputs rd imm)
    exact ⟨fun _ => ⟨hdmem, hstores⟩, fun _ => hreads⟩
  | jump c addr =>
    rw [exec_jump] at h
    obtain ⟨-, rfl⟩ := State.unprefixed_next h
    split <;> exact ⟨fun _ => ⟨rfl, rfl⟩, fun _ => rfl⟩
  | brRr | brlRr | i12 =>
    obtain ⟨-, rfl⟩ := State.unprefixed_next h
    exact ⟨fun _ => ⟨rfl, rfl⟩, fun _ => rfl⟩
  | subi | subic | brRi | brlRi =>
    cases h
    exact ⟨fun _ => ⟨rfl, rfl⟩, fun _ => rfl⟩

/-- Settles O52: only a store writes RAM or sends an event, and only a load draws from a device; a short-hand is its
expansion. -/
theorem onlyStoresChangeData : Obligations.OnlyStoresChangeData := by
  unfold Obligations.OnlyStoresChangeData
  intro i s t h
  rw [← exec_canonical] at h
  have hdata := exec_data i.canonical_wellFormed h
  rwa [i.canonical_stores, i.canonical_loads] at hdata

/-! ## Device and absent addresses -/

/-- Settles O43: the load answers with a word of the environment's, and the store is an event. -/
theorem deviceAccess : Obligations.DeviceAccess := by
  unfold Obligations.DeviceAccess
  intro g rd rs imm s hwf hdevice
  rw [exec_loadOf, exec_storeOf, State.load_device hdevice, State.store_device hdevice]
  refine ⟨⟨_, rfl, ?load⟩, ⟨_, rfl, ?store⟩⟩
  case load =>
    exact ⟨fun r hr => s.setReg_reg_other _ hr, ⟨rfl, rfl, rfl⟩, ⟨rfl, rfl, rfl, rfl, fun _ => rfl⟩, fun _ => rfl, rfl,
      rfl, State.pcNext_toNat hwf⟩
  case store =>
    exact ⟨rfl, fun _ => rfl, fun _ => rfl, ⟨rfl, rfl, rfl⟩, ⟨rfl, rfl, rfl, rfl, fun _ => rfl⟩, rfl,
      State.pcNext_toNat hwf⟩

/-- Settles O44: both accesses are refused at an absent address. -/
theorem absentAccessIsStuck : Obligations.AbsentAccessIsStuck := by
  unfold Obligations.AbsentAccessIsStuck
  intro g rd rs imm s habsent
  rw [exec_loadOf, exec_storeOf, State.load_absent habsent, State.store_absent habsent]
  exact ⟨rfl, rfl⟩

end Sys2Proof.Machine
end

section
/-! The step of 60_exceptions.md section 2: it runs the instruction at pc, and the delay slots of R261 hold a taken
transfer back (log 25). -/

namespace Sys2Proof.Machine

/-! ## The instruction at pc -/

/-- Settles O8: the checks before it let the decoded instruction through. -/
theorem stepRunsTheDecodedInstruction : Obligations.StepRunsTheDecodedInstruction := by
  unfold Obligations.StepRunsTheDecodedInstruction
  intro s i hrun hrange hword
  have hstep := step_instr (State.fetch_decoded hrun hrange hword)
  exact ⟨hstep, fun hslots => by rw [hstep, State.delay_zero hslots]⟩

/-- The word placed at pc is the one fetched. -/
theorem State.withFetchWord_read {s : State} (himem : Memory.wf s.imem) {w : Nat} (hw : w < 65536) :
    Memory.read (s.withFetchWord 16 w).imem s.pc.toNat = BitVec.ofNat 16 w := by
  rw [State.withFetchWord, State.placeWord_imem, Memory.read_write_same himem,
    Nat.mod_eq_of_lt (show w < 2 ^ 16 from hw)]

theorem decodeTableWord_of_decode {w : Nat} {i : Instr} (hw : w < 65536) (h : decode (BitVec.ofNat 16 w) = .ok i) :
    decodeTableWord 16 w = some i := by
  have hmod : w % 2 ^ 16 = w := Nat.mod_eq_of_lt hw
  simp only [decodeTableWord, hmod, h]
  exact if_pos hw

/-- Settles O10: placing a word changes neither pc nor the parameters, so the step runs what the word decodes to. -/
theorem placedWordRunsNext : Obligations.PlacedWordRunsNext := by
  unfold Obligations.PlacedWordRunsNext
  intro s w i himem hrun hrange hw hword
  rw [← State.withFetchWord_read himem hw] at hword
  obtain ⟨hstep, hzero⟩ := stepRunsTheDecodedInstruction (s.withFetchWord 16 w) i hrun hrange hword
  refine ⟨hstep, hzero, fun hspec => decodeTableWord_of_decode hw ?_⟩
  rw [State.withFetchWord_read himem hw, hspec] at hword
  exact hword

/-! ## Instructions with an immediate operand -/

theorem State.load_ne_fault (s : State) (rd : RegNum) (a : Nat) (f : Fault) : s.load rd a ≠ .fault f := by
  unfold State.load
  split <;> simp

theorem State.store_ne_fault (s : State) (a : Nat) (v : Word) (f : Fault) : s.store a v ≠ .fault f := by
  unfold State.store
  split <;> simp

/-- An ri or rri instruction raises no fault: it answers a next state, or is stuck at an absent address. -/
theorem exec_ne_fault {i : Instr} (h : i.takesNoPrefix = false) (s : State) (f : Fault) : exec i s ≠ .fault f := by
  cases i with
  | lwD | lwS => exact s.load_ne_fault _ _ f
  | swD | swS => exact s.store_ne_fault _ _ f
  | subRr | subcRr | sbbRr | sbbcRr | andRr | andcRr | nandRr | nandcRr | orRr | orcRr | xorRr | xorcRr
  | mullRr | mulhRr | cmpRr | jnz | jz | jl | jg | jb | jbe | ja | jae | brRr | brlRr | i12 => cases h
  | _ => exact nofun

/-- Settles O13: no fault at all, and an empty latch as after every instruction but `i12`. -/
theorem immediateFormsConsumeThePrefix : Obligations.ImmediateFormsConsumeThePrefix := by
  unfold Obligations.ImmediateFormsConsumeThePrefix
  intro i s hformat
  refine ⟨fun p => exec_ne_fault hformat s _, fun t h => ?_⟩
  rw [(exec_control h).pfx]
  refine Instr.prefixLeft_eq_none ?_
  rintro p rfl
  cases hformat

/-! ## Delay slots (R261) -/

/-- An instruction in a slot, with one transfer waiting: in the last slot its target is due, in an earlier one the
next word is. -/
theorem step_in_slot {s t : State} {i : Instr} {p : Transfer} (h : step s = .next t) (hfetch : s.fetch = .instr i)
    (hstay : s.transfersBy i = false) (hslots : s.cfg.delaySlots ≠ 0) (hpending : s.pending = [p]) :
    if p.left ≤ 1 then t.pc = p.target ∧ t.pending = []
    else t.pc = s.pcNext ∧ t.pending = [p.countDown] := by
  obtain ⟨j, u, hj, -, rfl⟩ := step_next h
  rw [hfetch] at hj
  cases hj
  rw [State.settle_pc hslots, State.settle_pending hslots, hpending, State.newTransfer, hstay]
  by_cases hlast : p.left ≤ 1
  · simp [dueTarget, countDownAll, hlast]
  · simp [dueTarget, countDownAll, hlast]

/-- The state `k` instructions into the slots of a transfer of `s` to `target`. -/
structure InSlots (s : State) (target : Word) (k : Nat) (t : State) : Prop where
  cfg : t.cfg = s.cfg
  pc : t.pc.toNat = (s.pc.toNat + k) % 2 ^ s.cfg.pcw
  pending : t.pending = [⟨s.cfg.delaySlots + 1 - k, target⟩]

/-- A taken transfer with nothing pending goes into its first slot. -/
theorem step_transfer {s t u : State} {i : Instr} (hwf : s.cfg.wf = true) (hpending : s.pending = [])
    (h : step s = .next t) (hfetch : s.fetch = .instr i) (htransfers : s.transfersBy i = true)
    (hexec : exec i s = .next u) (hslots : s.cfg.delaySlots ≠ 0) : InSlots s u.pc 1 t := by
  obtain ⟨j, v, hj, hv, rfl⟩ := step_next h
  rw [hfetch] at hj
  cases hj
  rw [hexec] at hv
  cases hv
  refine ⟨?_, ?_, ?_⟩
  · rw [State.settle_cfg, (exec_control hexec).cfg]
  · rw [State.settle_pc hslots, hpending]
    exact State.pcNext_toNat hwf
  · simp [State.settle_pending hslots, hpending, countDownAll, State.newTransfer, htransfers]

/-- An instruction in a slot that is not the last goes on to the next slot. -/
theorem InSlots.next {s t u : State} {target : Word} {k : Nat} (ht : InSlots s target k t) (hwf : s.cfg.wf = true)
    (hk : k < s.cfg.delaySlots) (h : step t = .next u) (hslot : ∃ j, t.fetch = .instr j ∧ t.transfersBy j = false) :
    InSlots s target (k + 1) u := by
  obtain ⟨j, hfetch, hstay⟩ := hslot
  have hstep := step_in_slot h hfetch hstay (by rw [ht.cfg]; omega) ht.pending
  rw [if_neg (by dsimp only; omega)] at hstep
  obtain ⟨hpc, hpending⟩ := hstep
  obtain ⟨-, -, -, hcfg⟩ := constantsOfARun.2 t u h
  refine ⟨hcfg.trans ht.cfg, ?_, ?_⟩
  · rw [hpc, State.pcNext_toNat (ht.cfg ▸ hwf), ht.cfg, ht.pc, Nat.mod_add_mod, Nat.add_assoc]
  · rw [hpending, Transfer.countDown]
    congr 2

/-- The instruction in the last slot goes on to the target. -/
theorem InSlots.last {s t u : State} {target : Word} (ht : InSlots s target s.cfg.delaySlots t)
    (hslots : s.cfg.delaySlots ≠ 0) (h : step t = .next u)
    (hslot : ∃ j, t.fetch = .instr j ∧ t.transfersBy j = false) : u.pc = target ∧ u.pending = [] := by
  obtain ⟨j, hfetch, hstay⟩ := hslot
  have hstep := step_in_slot h hfetch hstay (ht.cfg ▸ hslots) ht.pending
  rwa [if_pos (by dsimp only; omega)] at hstep

/-- Settles O11: by induction on the slots passed; without slots the step is the transfer itself. -/
theorem delaySlotsThenTarget : Obligations.DelaySlotsThenTarget := by
  unfold Obligations.DelaySlotsThenTarget
  intro run i t hwf hpending hsteps hfetch htransfers hexec hslot
  have hfirst := hsteps 0 (Nat.zero_le _)
  by_cases hslots : (run 0).cfg.delaySlots = 0
  · rw [step_instr hfetch, State.delay_zero hslots, hexec] at hfirst
    cases hfirst
    rw [hslots]
    exact ⟨fun k hk hk0 => by omega, rfl, (exec_pending hexec).trans hpending⟩
  · have hin (k : Nat) (hk : 1 ≤ k) : k ≤ (run 0).cfg.delaySlots → InSlots (run 0) t.pc k (run k) := by
      induction k, hk using Nat.le_induction with
      | base => exact fun _ => step_transfer hwf hpending hfirst hfetch htransfers hexec hslots
      | succ k hk ih =>
        exact fun hle => (ih (by omega)).next hwf (by omega) (hsteps k (by omega)) (hslot k hk (by omega))
    have hone : 1 ≤ (run 0).cfg.delaySlots := Nat.one_le_iff_ne_zero.2 hslots
    exact ⟨fun k hk hle => (hin k hk hle).pc,
      (hin _ hone le_rfl).last hslots (hsteps _ le_rfl) (hslot _ hone le_rfl)⟩

end Sys2Proof.Machine
end

section
/-! The invariant of the machine (00_scope.md section 4, 10_state.md, 20_memory.md): it holds at every launch, and every
step and every write of another bus master keeps it. The part about data memory and the part about the pending
transfers are kept apart, since different operations touch them. -/

namespace Sys2Proof.Machine

/-! ## Data memory and device events -/

/-- The part of the invariant about data memory and the device events. -/
structure DataInv (c : Config) (m : Memory) (events : List DeviceStore) : Prop where
  canonical : Memory.wf m
  ram : ∀ e ∈ m, classify c.memMap e.1 = .ram
  range : ∀ e ∈ m, e.1 < 2 ^ (max c.dsw c.ssw + 16)
  device : ∀ e ∈ events, classify c.memMap e.addr = .device

theorem State.Inv.data {s : State} (h : s.Inv) : DataInv s.cfg s.dmem s.deviceStores :=
  ⟨h.dmem, h.ram, h.range, h.events⟩

/-- A write to a RAM address in range. -/
theorem DataInv.write {c : Config} {m : Memory} {events : List DeviceStore} (h : DataInv c m events) {a : Nat}
    (hram : classify c.memMap a = .ram) (hrange : a < 2 ^ (max c.dsw c.ssw + 16)) (v : Word) :
    DataInv c (Memory.write m a v) events := by
  refine ⟨Memory.write_wf h.canonical a v, fun e he => ?_, fun e he => ?_, h.device⟩
  · obtain rfl | he := Memory.mem_write he
    · exact hram
    · exact h.ram e he
  · obtain rfl | he := Memory.mem_write he
    · exact hrange
    · exact h.range e he

/-- A store to a device address. -/
theorem DataInv.append {c : Config} {m : Memory} {events : List DeviceStore} (h : DataInv c m events)
    {e : DeviceStore} (hdevice : classify c.memMap e.addr = .device) : DataInv c m (events ++ [e]) := by
  refine ⟨h.canonical, h.ram, h.range, fun d hd => ?_⟩
  obtain hd | hd := List.mem_append.1 hd
  · exact h.device d hd
  · rw [List.mem_singleton.1 hd]
    exact hdevice

/-- A data address is in range, through either segment (R36). -/
theorem State.Inv.address_lt {s : State} (h : s.Inv) (g : Seg) (rs : RegNum) (imm : BitVec 4) :
    s.address g rs imm < 2 ^ (max s.cfg.dsw s.cfg.ssw + 16) := by
  cases g with
  | d => exact (dataAddress_lt h.ds).trans_le (Nat.pow_le_pow_right (by decide) (by omega))
  | s => exact (dataAddress_lt h.ss).trans_le (Nat.pow_le_pow_right (by decide) (by omega))

/-- Every instruction keeps the part about data memory and the device events. -/
theorem exec_keeps_data {i : Instr} {s t : State} (hinv : s.Inv) (h : exec i s = .next t) :
    DataInv s.cfg t.dmem t.deviceStores := by
  by_cases hstores : i.stores = true
  · obtain ⟨g, rd, rs, imm, rfl⟩ := i.stores_iff.1 hstores
    rw [exec_storeOf] at h
    obtain ⟨hram, rfl⟩ | ⟨hdevice, rfl⟩ := State.store_next h
    · exact hinv.data.write hram (hinv.address_lt g rs imm) (s.reg rd)
    · exact hinv.data.append hdevice
  · obtain ⟨hdmem, hevents⟩ := (onlyStoresChangeData i s t h).1 (Bool.eq_false_iff.2 hstores)
    rw [hdmem, hevents]
    exact hinv.data

/-! ## The program counter -/

/-- A jump within the page of a pc in range stays in range: PCW is at least 10 (R24). -/
theorem page_lt {n pc addr : Nat} (hn : 10 ≤ n) (hpc : pc < 2 ^ n) (haddr : addr < 1024) :
    pc / 1024 * 1024 + addr < 2 ^ n := by
  have hpow : 2 ^ n = 1024 * 2 ^ (n - 10) := by
    rw [show 1024 = 2 ^ 10 from rfl, ← pow_add, Nat.add_sub_of_le hn]
  omega

theorem State.Inv.bxTarget_lt {s : State} (h : s.Inv) (addr : BitVec 10) : (s.bxTarget addr).toNat < 2 ^ s.cfg.pcw := by
  have hpcw := (Config.wf_iff s.cfg).1 h.params
  cases hupper : s.cfg.bxUpper with
  | zero =>
    rw [State.bxTarget_zero hupper]
    exact addr.isLt.trans_le (Nat.pow_le_pow_right (by decide) hpcw.1)
  | keep =>
    rw [State.bxTarget_keep hupper]
    exact page_lt hpcw.1 h.pc addr.isLt

theorem State.Inv.transferTarget_lt {s : State} (h : s.Inv) (i : Instr) :
    (s.transferTarget i).toNat < 2 ^ s.cfg.pcw := by
  cases i with
  | jnz | jz | jl | jg | jb | jbe | ja | jae => exact h.bxTarget_lt _
  | brRr | brlRr | brRi | brlRi => exact truncPc_lt h.params _
  | _ => exact State.pcNext_lt h.params

theorem State.Inv.nextPc_lt {s : State} (h : s.Inv) (i : Instr) : (s.nextPc i).toNat < 2 ^ s.cfg.pcw := by
  unfold State.nextPc
  split
  · exact h.transferTarget_lt i
  · exact State.pcNext_lt h.params

/-- Every instruction keeps the invariant. -/
theorem exec_keeps_inv {i : Instr} {s t : State} (hinv : s.Inv) (h : exec i s = .next t) : t.Inv := by
  obtain ⟨hpc, -, hds, hss, himem, hcfg⟩ := exec_control h
  obtain ⟨hdmem, hram, hrange, hevents⟩ := exec_keeps_data hinv h
  have hpending := exec_pending h
  constructor
  case params => exact hcfg ▸ hinv.params
  case pc => rw [hpc, hcfg]; exact hinv.nextPc_lt i
  case ds => rw [hds, hcfg]; exact hinv.ds
  case ss => rw [hss, hcfg]; exact hinv.ss
  case imem => exact himem ▸ hinv.imem
  case dmem => exact hdmem
  case ram => rw [hcfg]; exact hram
  case range => rw [hcfg]; exact hrange
  case slots => rw [hpending]; exact hinv.slots
  case due => rw [hpending, hcfg]; exact hinv.due
  case events => rw [hcfg]; exact hevents

/-! ## The pending transfers (R261, log 25) -/

/-- The part of the invariant about the pending transfers. -/
structure PendingInv (c : Config) (l : List Transfer) : Prop where
  slots : l.Pairwise fun p q => p.left < q.left
  due : ∀ p ∈ l, 1 ≤ p.left ∧ p.left ≤ c.delaySlots ∧ p.target.toNat < 2 ^ c.pcw

theorem State.Inv.transfers {s : State} (h : s.Inv) : PendingInv s.cfg s.pending := ⟨h.slots, h.due⟩

/-- A target that is due has PCW bits. -/
theorem PendingInv.dueTarget_lt {c : Config} {l : List Transfer} (h : PendingInv c l) {t : Word}
    (ht : dueTarget l = some t) : t.toNat < 2 ^ c.pcw := by
  cases l with
  | nil => cases ht
  | cons p l =>
    rw [dueTarget] at ht
    split at ht
    · cases ht
      obtain ⟨-, -, htarget⟩ := h.due p List.mem_cons_self
      exact htarget
    · cases ht

/-- Counting down frees the last slot. -/
theorem PendingInv.countedDown {c : Config} {l : List Transfer} (h : PendingInv c l) :
    PendingInv c (countDownAll l) ∧ ∀ p ∈ countDownAll l, p.left < c.delaySlots := by
  obtain ⟨hsorted, horigin⟩ := countDownAll_slots h.slots fun p hp => (h.due p hp).1
  have hleft : ∀ p ∈ countDownAll l, 1 ≤ p.left ∧ p.left < c.delaySlots ∧ p.target.toNat < 2 ^ c.pcw := by
    intro p hp
    obtain ⟨q, hq, htarget, hle, hsucc⟩ := horigin p hp
    obtain ⟨-, hmax, hlt⟩ := h.due q hq
    exact ⟨hle, by omega, htarget ▸ hlt⟩
  refine ⟨⟨hsorted, fun p hp => ?_⟩, fun p hp => (hleft p hp).2.1⟩
  obtain ⟨hle, hlt, htarget⟩ := hleft p hp
  exact ⟨hle, hlt.le, htarget⟩

/-- A new transfer takes the last slot. -/
theorem PendingInv.append {c : Config} {l : List Transfer} (h : PendingInv c l) (hfree : ∀ p ∈ l, p.left < c.delaySlots)
    (hslots : c.delaySlots ≠ 0) {t : Word} (ht : t.toNat < 2 ^ c.pcw) : PendingInv c (l ++ [⟨c.delaySlots, t⟩]) := by
  constructor
  case slots =>
    refine List.pairwise_append.2 ⟨h.slots, List.pairwise_singleton _ _, fun p hp q hq => ?_⟩
    rw [List.mem_singleton.1 hq]
    exact hfree p hp
  case due =>
    intro p hp
    obtain hp | hp := List.mem_append.1 hp
    · exact h.due p hp
    · rw [List.mem_singleton.1 hp]
      exact ⟨Nat.one_le_iff_ne_zero.2 hslots, le_rfl, ht⟩

/-- Putting the slots around an instruction keeps the invariant. -/
theorem State.Inv.settle {s t : State} (hs : s.Inv) (ht : t.Inv) (hcfg : t.cfg = s.cfg) (i : Instr) :
    (s.settle i t).Inv := by
  by_cases hslots : s.cfg.delaySlots = 0
  · rwa [State.settle_zero hslots]
  have htransfers : PendingInv s.cfg (s.settle i t).pending := by
    obtain ⟨hcount, hfree⟩ := hs.transfers.countedDown
    rw [State.settle_pending hslots, State.newTransfer]
    split
    · exact hcount.append hfree hslots (hcfg ▸ ht.pc)
    · rwa [List.append_nil]
  have hpc : (s.settle i t).pc.toNat < 2 ^ s.cfg.pcw := by
    rw [State.settle_pc hslots]
    cases hdue : dueTarget s.pending with
    | none => exact State.pcNext_lt hs.params
    | some target => exact hs.transfers.dueTarget_lt hdue
  constructor
  case params => simpa using ht.params
  case pc => simpa [hcfg] using hpc
  case ds => simpa using ht.ds
  case ss => simpa using ht.ss
  case imem => simpa using ht.imem
  case dmem => simpa using ht.dmem
  case ram => simpa using ht.ram
  case range => simpa using ht.range
  case slots => exact htransfers.slots
  case due => simpa [hcfg] using htransfers.due
  case events => simpa using ht.events

/-- Settles O53: the instruction keeps the invariant, and so do the slots around it. -/
theorem stepKeepsTheInvariant : Obligations.StepKeepsTheInvariant := by
  unfold Obligations.StepKeepsTheInvariant
  intro s t hinv h
  obtain ⟨i, u, -, hexec, rfl⟩ := step_next h
  exact hinv.settle (exec_keeps_inv hinv hexec) (exec_control hexec).cfg i

/-! ## Where the invariant holds besides -/

/-- Settles O55: pc is 0, and neither a transfer is pending nor an event on record. -/
theorem launchMeetsTheInvariant : Obligations.LaunchMeetsTheInvariant := by
  unfold Obligations.LaunchMeetsTheInvariant
  intro l h
  exact {
    params := h.params
    pc := Nat.two_pow_pos _
    ds := h.ds
    ss := h.ss
    imem := h.program
    dmem := h.ram
    ram := h.ramClass
    range := h.range
    slots := .nil
    due := nofun
    events := nofun }

/-- The inputs of the reset are a launch in range. -/
theorem Launch.atReset_inv : Launch.atReset.Inv := by
  constructor <;> decide

/-- Settles O54: the reset is a launch. -/
theorem resetMeetsTheInvariant : Obligations.ResetMeetsTheInvariant := by
  unfold Obligations.ResetMeetsTheInvariant
  rw [State.reset_eq_launch]
  exact launchMeetsTheInvariant _ Launch.atReset_inv

/-- A write to RAM in range keeps the invariant. -/
theorem State.Inv.ramWrite {s : State} (h : s.Inv) {a : Nat} (hram : classify s.cfg.memMap a = .ram)
    (hrange : a < 2 ^ (max s.cfg.dsw s.cfg.ssw + 16)) (v : Word) : (s.ramWrite a v).Inv := by
  obtain ⟨hdmem, hram, hrange, -⟩ := h.data.write hram hrange v
  exact { h with dmem := hdmem, ram := hram, range := hrange }

/-- Settles O56: at a RAM address it is a write in range, and elsewhere nothing. -/
theorem externalWriteKeepsTheInvariant : Obligations.ExternalWriteKeepsTheInvariant := by
  unfold Obligations.ExternalWriteKeepsTheInvariant
  intro s a v hinv hrange
  unfold State.externalWrite
  split
  · next hram => exact ⟨hinv.ramWrite hram hrange v, fun _ => State.ramWrite_ramRead_same hinv.dmem a v⟩
  · next hdevice => exact ⟨hinv, fun hram => by simp [hdevice] at hram⟩
  · next habsent => exact ⟨hinv, fun hram => by simp [habsent] at hram⟩

end Sys2Proof.Machine
end

section
/-! The flags over all instructions, 10_state.md section 3: which keep them (the table of R29), and which tell them
apart (R28). -/

namespace Sys2Proof

/-! ## The tables of R29 and R28 by operation -/

/-- The operations that write ZF (R29). -/
def AluOp.writesZf : AluOp → Bool
  | .andc | .nandc | .orc | .xorc | .cmp => true
  | _ => false

/-- The operations that write NF and BF (R29). -/
def AluOp.writesNfBf : AluOp → Bool
  | .subc | .sbbc | .cmp => true
  | _ => false

/-- The operations that read BF (R28). -/
def AluOp.readsBf : AluOp → Bool
  | .sbb | .sbbc => true
  | _ => false

section Tables

variable (op : AluOp) (rd rs : RegNum) (imm : BitVec 4)

@[simp] theorem AluOp.rr_writesZf : (op.rr rd rs).writesZf = op.writesZf := by cases op <;> rfl
@[simp] theorem AluOp.ri_writesZf : (op.ri rd imm).writesZf = op.writesZf := by cases op <;> rfl
@[simp] theorem AluOp.rr_writesNfBf : (op.rr rd rs).writesNfBf = op.writesNfBf := by cases op <;> rfl
@[simp] theorem AluOp.ri_writesNfBf : (op.ri rd imm).writesNfBf = op.writesNfBf := by cases op <;> rfl
@[simp] theorem AluOp.rr_readsFlags : (op.rr rd rs).readsFlags = op.readsBf := by cases op <;> rfl
@[simp] theorem AluOp.ri_readsFlags : (op.ri rd imm).readsFlags = op.readsBf := by cases op <;> rfl

end Tables

@[simp] theorem Cond.jump_readsFlags (c : Cond) (addr : BitVec 10) : (c.jump addr).readsFlags = true := by
  cases c <;> rfl

theorem Instr.canonical_writesZf (i : Instr) : i.canonical.writesZf = i.writesZf := by
  cases i <;> rfl

theorem Instr.canonical_writesNfBf (i : Instr) : i.canonical.writesNfBf = i.writesNfBf := by
  cases i <;> rfl

theorem Instr.canonical_readsFlags (i : Instr) : i.canonical.readsFlags = i.readsFlags := by
  cases i <;> rfl

/-- No short-hand reads a flag (R28, R110). -/
theorem Instr.readsFlags_of_not_wellFormed {i : Instr} (h : i.wellFormed ≠ true) : i.readsFlags = false := by
  cases i with
  | dec | decc | inc | incc | neg | negc => rfl
  | _ => exact absurd rfl h

end Sys2Proof

namespace Sys2Proof.Machine

/-! ## Instructions that keep the flags (R29) -/

/-- What the tables of R29 let an instruction do to the flags. -/
def KeepsFlags (writesZf writesNfBf : Bool) (s t : State) : Prop :=
  (writesZf = false → t.zf = s.zf) ∧ (writesNfBf = false → t.nf = s.nf ∧ t.bf = s.bf)

theorem SameFlags.keepsFlags {s t : State} (h : SameFlags s t) (z n : Bool) : KeepsFlags z n s t :=
  ⟨fun _ => h.1, fun _ => h.2⟩

theorem State.alu_keepsFlags (s : State) (op : AluOp) (rd : RegNum) (ab : Inputs) :
    KeepsFlags op.writesZf op.writesNfBf s (s.alu op rd ab) := by
  cases op with
  | sub | sbb | and | nand | or | xor | mull | mulh => exact ⟨fun _ => rfl, fun _ => ⟨rfl, rfl⟩⟩
  | subc | sbbc => exact ⟨fun _ => rfl, nofun⟩
  | andc | nandc | orc | xorc => exact ⟨nofun, fun _ => ⟨rfl, rfl⟩⟩
  | cmp => exact ⟨nofun, nofun⟩

/-- A well-formed instruction that goes on keeps the flags it does not write. -/
theorem exec_keepsFlags {i : Instr} (hwf : i.wellFormed = true) {s t : State} (h : exec i s = .next t) :
    KeepsFlags i.writesZf i.writesNfBf s t := by
  cases i, hwf using Instr.wellFormed_cases with
  | load g =>
    rw [exec_loadOf] at h
    obtain ⟨v, n, rfl, -⟩ := State.load_next h
    exact SameFlags.keepsFlags ⟨rfl, rfl, rfl⟩ _ _
  | store g =>
    rw [exec_storeOf] at h
    obtain ⟨-, rfl⟩ | ⟨-, rfl⟩ := State.store_next h <;> exact SameFlags.keepsFlags ⟨rfl, rfl, rfl⟩ _ _
  | aluRr op rd rs =>
    rw [exec_aluRr] at h
    obtain ⟨-, rfl⟩ := State.unprefixed_next h
    rw [AluOp.rr_writesZf, AluOp.rr_writesNfBf]
    exact s.alu_keepsFlags op rd (s.rrInputs rd rs)
  | aluRi op rd imm =>
    rw [exec_aluRi] at h
    cases h
    rw [AluOp.ri_writesZf, AluOp.ri_writesNfBf]
    exact s.alu_keepsFlags op rd (s.riInputs rd imm)
  | jump c addr =>
    rw [exec_jump] at h
    obtain ⟨-, rfl⟩ := State.unprefixed_next h
    split <;> exact SameFlags.keepsFlags ⟨rfl, rfl, rfl⟩ _ _
  | brRr | brlRr | i12 =>
    obtain ⟨-, rfl⟩ := State.unprefixed_next h
    exact SameFlags.keepsFlags ⟨rfl, rfl, rfl⟩ _ _
  | subi | brRi | brlRi =>
    cases h
    exact SameFlags.keepsFlags ⟨rfl, rfl, rfl⟩ _ _
  | subic =>
    cases h
    exact ⟨fun _ => rfl, nofun⟩

/-- Settles O49: of the operations the ones with a `c`, and the compare, write flags; a short-hand is its expansion. -/
theorem flagWriters : Obligations.FlagWriters := by
  unfold Obligations.FlagWriters
  intro i s t h
  rw [← exec_canonical] at h
  have hflags := exec_keepsFlags i.canonical_wellFormed h
  rwa [i.canonical_writesZf, i.canonical_writesNfBf] at hflags

/-! ## Instructions that tell the flags apart (R28) -/

/-- The same state with other flags. -/
def State.withFlags (s : State) (z n b : Bool) : State := { s with zf := z, nf := n, bf := b }

/-- The flags of `t` that were written, and the given ones for the rest. -/
def State.keepingFlags (t : State) (writesZf writesNfBf z n b : Bool) : State :=
  t.withFlags (bif writesZf then t.zf else z) (bif writesNfBf then t.nf else n) (bif writesNfBf then t.bf else b)

/-- An operation that does not read BF, or finds it the same, does the same with other flags, but for those it does
not write. -/
theorem State.withFlags_alu (s : State) (op : AluOp) (rd : RegNum) (ab : Inputs) {z n b : Bool}
    (h : op.readsBf = false ∨ b = s.bf) :
    (s.withFlags z n b).alu op rd ab = (s.alu op rd ab).keepingFlags op.writesZf op.writesNfBf z n b := by
  cases op with
  | sbb | sbbc =>
    obtain h | rfl := h
    · cases h
    · rfl
  | _ => rfl

theorem State.withFlags_load {s t : State} {rd : RegNum} {a : Nat} (h : s.load rd a = .next t) (z n b : Bool) :
    (s.withFlags z n b).load rd a = .next (t.withFlags z n b) := by
  cases hclass : classify s.cfg.memMap a with
  | ram =>
    rw [State.load_ram hclass] at h
    cases h
    exact State.load_ram hclass
  | device =>
    rw [State.load_device hclass] at h
    cases h
    exact State.load_device hclass
  | absent => rw [State.load_absent hclass] at h; cases h

theorem State.withFlags_store {s t : State} {a : Nat} {v : Word} (h : s.store a v = .next t) (z n b : Bool) :
    (s.withFlags z n b).store a v = .next (t.withFlags z n b) := by
  obtain ⟨hclass, rfl⟩ | ⟨hclass, rfl⟩ := State.store_next h
  · exact State.store_ram hclass
  · exact State.store_device hclass

/-- A well-formed instruction that does not read the flags, or reads only BF and finds it the same, does the same with
other flags, but for those it does not write. -/
theorem exec_withFlags {i : Instr} (hwf : i.wellFormed = true) {s t : State} (z n : Bool) {b : Bool}
    (h : exec i s = .next t)
    (hreads : i.readsFlags = false ∨ ((∀ (c : Cond) (addr : BitVec 10), i ≠ c.jump addr) ∧ b = s.bf)) :
    exec i (s.withFlags z n b) = .next (t.keepingFlags i.writesZf i.writesNfBf z n b) := by
  cases i, hwf using Instr.wellFormed_cases with
  | load g =>
    rw [exec_loadOf] at h ⊢
    cases g <;> exact State.withFlags_load h z n b
  | store g =>
    rw [exec_storeOf] at h ⊢
    cases g <;> exact State.withFlags_store h z n b
  | aluRr op rd rs =>
    rw [exec_aluRr] at h ⊢
    obtain ⟨hnone, rfl⟩ := State.unprefixed_next h
    rw [AluOp.rr_readsFlags] at hreads
    rw [AluOp.rr_writesZf, AluOp.rr_writesNfBf, ← s.withFlags_alu op rd _ (hreads.imp_right And.right)]
    exact State.unprefixed_none hnone _
  | aluRi op rd imm =>
    rw [exec_aluRi] at h ⊢
    cases h
    rw [AluOp.ri_readsFlags] at hreads
    rw [AluOp.ri_writesZf, AluOp.ri_writesNfBf, ← s.withFlags_alu op rd _ (hreads.imp_right And.right)]
    rfl
  | jump c addr =>
    obtain hreads | ⟨hjump, -⟩ := hreads
    · simp at hreads
    · exact absurd rfl (hjump c addr)
  | brRr | brlRr | i12 =>
    obtain ⟨hnone, rfl⟩ := State.unprefixed_next h
    exact State.unprefixed_none hnone _
  | subi | subic | brRi | brlRi =>
    cases h
    rfl

/-- Settles O50: the answers differ in flags that are not written alone; a short-hand answers as its expansion. -/
theorem flagReaders : Obligations.FlagReaders := by
  unfold Obligations.FlagReaders
  intro i s t z n b h hreads
  have hexec : exec i (s.withFlags z n b) = .next (t.keepingFlags i.writesZf i.writesNfBf z n b) := by
    by_cases hwf : i.wellFormed = true
    · exact exec_withFlags hwf z n h hreads
    · rw [← exec_canonical] at h ⊢
      rw [← i.canonical_writesZf, ← i.canonical_writesNfBf]
      refine exec_withFlags i.canonical_wellFormed z n h (.inl ?_)
      rw [i.canonical_readsFlags, Instr.readsFlags_of_not_wellFormed hwf]
  refine ⟨_, hexec, rfl, rfl, rfl, rfl, rfl, rfl, rfl, rfl, rfl, rfl, rfl, fun hzf => ?_, fun hnf => ?_⟩
  · rw [State.keepingFlags, hzf]
    rfl
  · rw [State.keepingFlags, hnf]
    exact ⟨rfl, rfl⟩

end Sys2Proof.Machine
end

section
/-! Short-hands and short sequences of 41_alu.md, 43_flow_control.md and the idioms of 30_encoding.md section 5: inc and
incc, short-hands after a prefix, a 32-bit subtraction, a call and its return, and constants put together by `i12`. Then
the readings of the conditional jumps beside the literal one, and the values known whatever the state held. -/

namespace Sys2Proof.Machine

/-! ## The short-hands of an increment (R144, R145) -/

/-- Without a prefix the field 0xF is the operand -1. -/
theorem State.immediate_minus_one {s : State} (h : s.pfx = none) : s.immediate 0xF#4 = 0xFFFF#16 :=
  State.immediate_none h 0xF#4

/-- Taking -1 away adds 1. -/
theorem IsDiff.increment {a r : Word} (h : IsDiff a 0xFFFF#16 false r) : r.toNat = (a.toNat + 1) % 65536 := by
  have hmax : (0xFFFF#16).toNat = 65535 := rfl
  rw [IsDiff, hmax, Bool.toNat_false] at h
  omega

/-- Taking 0xFFFF away borrows unless from 0xFFFF. -/
theorem borrows_minus_one (a : Word) : Borrows a 0xFFFF#16 false = decide (a.toNat ≠ 65535) := by
  have ha := a.isLt
  have hmax : (0xFFFF#16).toNat = 65535 := rfl
  rw [Borrows, hmax, Bool.toNat_false]
  exact decide_eq_decide.2 (by omega)

/-- Settles O20: `inc` is `subi` with the operand -1. -/
theorem incrementShorthands : Obligations.IncrementShorthands := by
  unfold Obligations.IncrementShorthands
  intro rd s hwf hnone
  have hinc := (subiResult rd rd 0xF#4 s hwf).2
  have hincc := (subicResult rd rd 0xF#4 s hwf).2
  rw [State.immediate_minus_one hnone] at hinc hincc
  refine ⟨hinc.imp fun t ht => ⟨ht, ht.1.increment⟩, hincc.imp fun t ht => ⟨ht, ht.1.increment, ?_⟩⟩
  rw [ht.bf_eq, borrows_minus_one]

/-! ## Short-hands after a prefix -/

/-- Settles O21: each expansion with the prefixed operand. -/
theorem prefixedShorthands : Obligations.PrefixedShorthands := by
  unfold Obligations.PrefixedShorthands
  intro rd p s hwf hp
  simp only [← State.immediate_some hp]
  exact ⟨(subiResult rd rd 1#4 s hwf).2, (subiResult rd rd 0xF#4 s hwf).2, (subResult.2 rd 0#4 s hwf).2,
    (subicResult rd rd 1#4 s hwf).2, (subicResult rd rd 0xF#4 s hwf).2, (subcResult.2 rd 0#4 s hwf).2⟩

/-! ## Subtraction in two words -/

/-- A difference of low words and one of high words with its borrow are a difference of double words. -/
theorem IsDiff.twoWords {a b r a' b' r' : Word} (hlow : IsDiff a b false r)
    (hhigh : IsDiff a' b' (Borrows a b false) r') :
    ((r'.toNat * 65536 + r.toNat : Nat) : Int) =
        (((a'.toNat * 65536 + a.toNat : Nat) : Int) - (b'.toNat * 65536 + b.toNat : Nat)) % 4294967296 ∧
      Borrows a' b' (Borrows a b false) =
        decide (a'.toNat * 65536 + a.toNat < b'.toNat * 65536 + b.toNat) := by
  have ha := a.isLt
  have hb := b.isLt
  unfold IsDiff at hlow hhigh
  by_cases hborrow : a.toNat < b.toNat
  · have hbit : Borrows a b false = true := decide_eq_true hborrow
    rw [hbit] at hhigh ⊢
    simp only [Bool.toNat_false, Bool.toNat_true] at hlow hhigh
    exact ⟨by omega, decide_eq_decide.2 (by rw [Bool.toNat_true]; omega)⟩
  · have hbit : Borrows a b false = false := decide_eq_false hborrow
    rw [hbit] at hhigh ⊢
    simp only [Bool.toNat_false] at hlow hhigh
    exact ⟨by omega, decide_eq_decide.2 (by rw [Bool.toNat_false]; omega)⟩

/-- Settles O27: the low subtraction leaves the high registers alone and hands its borrow on. -/
theorem twoWordSubtraction : Obligations.TwoWordSubtraction := by
  unfold Obligations.TwoWordSubtraction
  intro lo hi lo' hi' s hwf hnone hlohi hlohi'
  obtain ⟨-, hlow, -⟩ := subcResult.1 lo lo' s hwf
  refine (hlow hnone).imp fun t ht => ?_
  obtain ⟨hdiff, ⟨hothers, ⟨-, -, hcfg, -⟩, -, hpfx, -⟩, -, hbf, -⟩ := ht
  obtain ⟨-, hhigh, -⟩ := sbbcResult.1 hi hi' t (hcfg ▸ hwf)
  refine (hhigh hpfx).imp fun u hu => ?_
  obtain ⟨hdiff', ⟨hothers', -⟩, -, hbf', -⟩ := hu
  rw [hbf, hothers hi hlohi.symm, hothers hi' hlohi'.symm] at hdiff' hbf'
  rw [hothers' lo hlohi, hbf']
  exact hdiff.twoWords hdiff'

/-! ## A call and its return (R191, R192) -/

theorem Answers.of_next {o : Result} {P : State → Prop} {t : State} (h : Answers o P) (ht : o = .next t) : P t := by
  obtain ⟨u, hu, hP⟩ := h
  cases hu.symm.trans ht
  exact hP

/-- Settles O39: both forms of `brl` leave the address of the next word, which has PCW bits, in the link register. -/
theorem callThenReturn : Obligations.CallThenReturn := by
  unfold Obligations.CallThenReturn
  intro link rs imm s t u hwf hcall hcfg hlink hnone
  have hsaved : (t.reg link).toNat = (s.pc.toNat + 1) % 2 ^ s.cfg.pcw := by
    obtain ⟨-, -, hrr, -, hri⟩ := branchLinkResult link rs imm s hwf
    obtain hcall | hcall := hcall
    · exact (hri.of_next hcall).1
    · have hs := (State.unprefixed_next hcall).1
      exact ((hrr hs).of_next hcall).1
  obtain ⟨-, -, hreturn, -⟩ := branchResult link imm u (hcfg ▸ hwf)
  refine (hreturn hnone).imp fun v hv => ?_
  rw [hv.1, hlink, hsaved, hcfg, Nat.mod_mod]

/-! ## Constants by `i12` -/

/-- After `i12` with the upper 12 bits of a constant, its low four bits are the constant (R86, R120). -/
theorem State.immediate_constant {s : State} {k : Nat} (hk : k < 65536) (h : s.pfx = some (BitVec.ofNat 12 (k / 16))) :
    s.immediate (BitVec.ofNat 4 k) = BitVec.ofNat 16 k := by
  apply BitVec.eq_of_toNat_eq
  rw [State.immediate_some_toNat h]
  simp only [BitVec.toNat_ofNat]
  omega

/-- `i12` with the upper 12 bits of a constant makes its low four bits the constant, and changes nothing else. -/
theorem exec_i12_constant {s : State} (hwf : s.cfg.wf = true) (hnone : s.pfx = none) {k : Nat} (hk : k < 65536) :
    Answers (exec (.i12 (BitVec.ofNat 12 (k / 16))) s) fun t =>
      t.immediate (BitVec.ofNat 4 k) = BitVec.ofNat 16 k ∧ t.pc.toNat = (s.pc.toNat + 1) % 2 ^ s.cfg.pcw ∧
        SameButPc s t := by
  obtain ⟨-, hanswers, -⟩ := prefixResult (BitVec.ofNat 12 (k / 16)) s hwf
  exact (hanswers hnone).imp fun t ⟨hpfx, hpc, hsame⟩ => ⟨State.immediate_constant hk hpfx, hpc, hsame⟩

/-- The constant is the upper 12 bits and the low four. -/
theorem word_fields (k : Word) :
    k.extractLsb' 4 12 = BitVec.ofNat 12 (k.toNat / 16) ∧ k.extractLsb' 0 4 = BitVec.ofNat 4 k.toNat :=
  ⟨congrArg (BitVec.ofNat 12) (Nat.shiftRight_eq_div_pow k.toNat 4), rfl⟩

theorem SameFlags.trans {s t u : State} (h : SameFlags s t) (h' : SameFlags t u) : SameFlags s u :=
  ⟨h'.1.trans h.1, h'.2.1.trans h.2.1, h'.2.2.trans h.2.2⟩

theorem SameData.trans {s t u : State} (h : SameData s t) (h' : SameData t u) : SameData s u :=
  ⟨fun a => (h'.1 a).trans (h.1 a), h'.2.1.trans h.2.1, h'.2.2.trans h.2.2⟩

/-- Settles O46: 0 - (-k) is k. -/
theorem loadConstant : Obligations.LoadConstant := by
  unfold Obligations.LoadConstant
  intro k rd zero s hwf hnone hzero
  rw [(word_fields (-k)).1, (word_fields (-k)).2]
  refine (exec_i12_constant hwf hnone (-k).isLt).imp fun t ht => ?_
  obtain ⟨himm, hpc, hregs, hflags, ⟨-, -, hcfg, -⟩, hdata⟩ := ht
  obtain ⟨-, hsubi⟩ := subiResult rd zero (BitVec.ofNat 4 (-k).toNat) t (hcfg ▸ hwf)
  refine hsubi.imp fun u hu => ?_
  obtain ⟨hdiff, ⟨hothers, -, hdata', hpfx', hpc'⟩, hflags'⟩ := hu
  refine ⟨?_, fun r hr => (hothers r hr).trans (hregs r), hflags.trans hflags', hdata.trans hdata', hpfx', ?_⟩
  · rw [hdiff.eq_sub, himm, hregs zero, hzero, BitVec.ofNat_toNat, BitVec.setWidth_eq, BitVec.zero_sub,
      BitVec.neg_neg]
  · rw [hpc', hpc, hcfg, Nat.mod_add_mod]

/-! ## Shifts by multiplication -/

theorem toNat_two_pow {n : Nat} (hn : n ≤ 15) : (BitVec.ofNat 16 (2 ^ n)).toNat = 2 ^ n :=
  Nat.mod_eq_of_lt (Nat.pow_lt_pow_right (by decide) (by omega))

/-- The low half of a product with 2^n. -/
theorem eq_shiftLeft {a r : Word} {n : Nat} (hn : n ≤ 15)
    (h : r.toNat = (BitVec.ofNat 16 (2 ^ n)).toNat * a.toNat % 65536) : r = a <<< n := by
  apply BitVec.eq_of_toNat_eq
  rw [h, toNat_two_pow hn, BitVec.toNat_shiftLeft, Nat.shiftLeft_eq, Nat.mul_comm]

/-- The high half of a product with 2^(16-n): 2^16 is 2^(16-n) times 2^n. -/
theorem eq_shiftRight {a r : Word} {n : Nat} (hn : 1 ≤ n) (hn' : n ≤ 15)
    (h : r.toNat = (BitVec.ofNat 16 (2 ^ (16 - n))).toNat * a.toNat / 65536) : r = a >>> n := by
  apply BitVec.eq_of_toNat_eq
  have hpow : 65536 = 2 ^ (16 - n) * 2 ^ n := by
    rw [← pow_add, Nat.sub_add_cancel (by omega)]
    rfl
  rw [h, toNat_two_pow (by omega), hpow, Nat.mul_div_mul_left _ _ (Nat.two_pow_pos _), BitVec.toNat_ushiftRight,
    Nat.shiftRight_eq_div_pow]

/-- Settles O32: a half of the product with the power of two that `i12` and the field put together. -/
theorem shiftsByMultiplication : Obligations.ShiftsByMultiplication := by
  unfold Obligations.ShiftsByMultiplication
  intro rd n s hwf hnone hn
  have hlt {m : Nat} (hm : m ≤ 15) : 2 ^ m < 65536 := Nat.pow_lt_pow_right (n := 16) (by decide) (by omega)
  refine ⟨(exec_i12_constant hwf hnone (hlt hn)).imp fun t ht => ?left,
    fun hpos => (exec_i12_constant hwf hnone (hlt (m := 16 - n) (by omega))).imp fun t ht => ?right⟩
  all_goals obtain ⟨himm, -, hregs, -, ⟨-, -, hcfg, -⟩, -⟩ := ht
  case left =>
    obtain ⟨-, hmull⟩ := mullResult.2 rd (BitVec.ofNat 4 (2 ^ n)) t (hcfg ▸ hwf)
    refine hmull.imp fun u hu => ?_
    rw [himm, hregs] at hu
    exact eq_shiftLeft hn hu.1
  case right =>
    obtain ⟨-, hmulh⟩ := mulhResult.2 rd (BitVec.ofNat 4 (2 ^ (16 - n))) t (hcfg ▸ hwf)
    refine hmulh.imp fun u hu => ?_
    rw [himm, hregs] at hu
    exact eq_shiftRight hpos hn hu.1

/-! ## The other readings of the conditional jumps (C6, logs 17 and 18) -/

/-- Settles O35: the two rows in which the alternative table differs from the literal one. -/
theorem alternativeJumpConditions : Obligations.AlternativeJumpConditions := by
  unfold Obligations.AlternativeJumpConditions
  intro addr s hwf hupper halt hnone
  have hjbe : s.taken .jbe = true ↔ s.bf = true ∨ s.zf = true := by
    rw [State.taken, halt]
    exact Bool.or_eq_true_iff
  have hjae : s.taken .jae = true ↔ s.bf = false := by
    rw [State.taken, halt]
    exact (Bool.not_eq_true' _).to_iff
  exact ⟨(jump_goes hwf hupper addr .jbe hjbe).2 hnone, (jump_goes hwf hupper addr .jae hjae).2 hnone⟩

/-- Settles O36: what a jump does without a prefix, with its target in the page of its own pc. -/
theorem pageKeepingJumps : Obligations.PageKeepingJumps := by
  unfold Obligations.PageKeepingJumps
  intro c addr s hwf hupper hnone
  have hjump := State.condJump_answers hwf hnone c addr
  rw [State.bxTarget_keep hupper] at hjump
  rw [exec_jump]
  exact hjump

/-! ## Known values from unknown ones -/

/-- Settles O58: a word exclusive-or itself and less itself is 0, and so is its conjunction with 0. -/
theorem knownValues : Obligations.KnownValues := by
  unfold Obligations.KnownValues
  intro rd s hnone
  refine ⟨State.unprefixed_answers hnone ?xor, State.unprefixed_answers hnone ?sub, ⟨_, rfl, ?and⟩,
    State.unprefixed_answers hnone ?cmp⟩
  case xor => simp [State.bitwise, Inputs.xor, State.rrInputs]
  case sub => simp [State.subtract, State.rrInputs, diff_eq_sub]
  case and => simp [State.bitwise, Inputs.and, State.riInputs, State.immediate_zero hnone]
  case cmp => simp [State.compare, State.rrInputs, diff_eq_sub, borrow]

end Sys2Proof.Machine
end
